-- ==== Sys2Proof/Word.lean ====
section
/-! DEFINITION. The widths of spec/00_scope.md R6, each a bit vector under the spec's own name. -/

namespace Sys2Proof

/-- A register, an input byte (`BYTE_W` = 8, spec R6). -/
abbrev Byte := BitVec 8

/-- A register address (`ADDR_W` = 8, spec R6, R27). -/
abbrev Addr := BitVec 8

/-- The assembled word (`WORD_W` = 16, spec R6), and the pattern of a signed count (`IVAL_W` = 16, spec R59). -/
abbrev Word := BitVec 16

/-- The masked field (`FIELD_W` = 12, spec R6). -/
abbrev Field := BitVec 12

/-- The operation select `mode` (spec R57). -/
abbrev Mode := BitVec 2

/-- The decode request word `DREQ` (spec R55). -/
abbrev Dreq := BitVec 18

/-- A binary32 pattern (`FLOAT_FMT`, spec R58); the encode request word `EREQ` is one (spec R56). -/
abbrev Binary32 := BitVec 32

end Sys2Proof
end

