-- ==== Sys2Proof/Machine/Binary32.lean ====
section
/-! DEFINITION. The format `FLOAT32`: IEEE 754 binary32 (spec R58), read as an exact rational, and the pattern
`Float32Of` of a scaled count (spec R91). -/

namespace Sys2Proof.Machine

/-- The sign bit, bit 31 (spec R58). -/
def fSign (t : Binary32) : Bool := t.getLsbD 31

/-- The biased exponent, bits 30 to 23 (spec R58). -/
def fExp (t : Binary32) : Nat := (t.extractLsb' 23 8).toNat

/-- The fraction, bits 22 to 0 (spec R58). -/
def fFrac (t : Binary32) : Nat := (t.extractLsb' 0 23).toNat

/-- `IsNaN(t)`: exponent 255 and non-zero fraction (spec R8). -/
def isNaN (t : Binary32) : Bool := fExp t == 255 && fFrac t != 0

/-- Infinity: exponent 255 and fraction 0 (spec R58). -/
def isInf (t : Binary32) : Bool := fExp t == 255 && fFrac t == 0

/-- Neither a NaN nor an infinity. -/
def isFinite (t : Binary32) : Bool := fExp t != 255

/-- A normal number: `0 < e < 255` (spec R58). -/
def isNormal (t : Binary32) : Bool := fExp t != 0 && fExp t != 255

/-- The significand with 23 fraction bits: `1.f` for a normal number, `0.f` for a subnormal or zero (spec R58). -/
def fSignificand (t : Binary32) : Nat :=
  if fExp t = 0 then fFrac t else 2 ^ 23 + fFrac t

/-- The value of a finite pattern times `2^150`, an integer: `(-1)^s * significand * 2^(e-127-23)`, with the
exponent of a subnormal being that of `e = 1` (spec R58). -/
def fScaled (t : Binary32) : Int :=
  let magnitude : Int := (fSignificand t * 2 ^ (max (fExp t) 1) : Nat)
  if fSign t then -magnitude else magnitude

/-- The value of a finite pattern as an exact rational (spec R9, R58). -/
def fValue (t : Binary32) : Rat := (fScaled t : Rat) / 2 ^ 150

/-- `Float32Of(i * 2^-k)`: the binary32 pattern of a scaled count (spec R91). Zero is positive zero (spec R92). -/
def float32Of (i : Int) (k : Nat) : Binary32 :=
  if i = 0 then 0
  else
    let a := i.natAbs
    let p := Nat.log2 a
    BitVec.ofBool (decide (i < 0)) ++ BitVec.ofNat 8 (p + 127 - k) ++ BitVec.ofNat 23 ((a - 2 ^ p) <<< (23 - p))

end Sys2Proof.Machine
end

