-- ==== Sys2Proof/Syntax.lean ====
section
/-! DEFINITION. The requests of the block, one constructor per row of spec/opcode_table.json (spec R57). Operands are
written low byte first, as in the spec's written syntax (spec R66). -/

namespace Sys2Proof

/-- A request of the block: it plays the part of an instruction (spec R55, R56). -/
inductive Instr where
  /-- `DEC_PIX b_lo, b_hi`: pixel decode (spec R83). -/
  | decPix (bLo bHi : Byte)
  /-- The reserved code `mode = 0b01` (spec R62). -/
  | reserved01 (bLo bHi : Byte)
  /-- `DEC_THR b_lo, b_hi`: interrupt-threshold decode (spec R77). -/
  | decThr (bLo bHi : Byte)
  /-- `DEC_THM b_lo, b_hi`: thermistor decode (spec R76). -/
  | decThm (bLo bHi : Byte)
  /-- `ENC_THR t`: threshold encode (spec R94). -/
  | encThr (t : Binary32)
deriving DecidableEq, Repr

end Sys2Proof
end

