-- ==== Sys2Proof/WellFormed.lean ====
section
/-! DEFINITION. Which terms of `Instr` a request word spells. Every byte pair is legal in every mode (spec R118, R64); the
reserved code has its words too (spec R62). The one operand value that no verdict of the encode path admits is a
NaN (spec R65). -/

namespace Sys2Proof

/-- The request is the verdict of some request word (spec R65). -/
def WellFormed : Instr → Bool
  | .decPix _ _ => true
  | .reserved01 _ _ => true
  | .decThr _ _ => true
  | .decThm _ _ => true
  | .encThr t => !Machine.isNaN t

/-- The request is a defined request: not the reserved mode and not a NaN threshold (spec R64). -/
def Defined : Instr → Bool
  | .decPix _ _ => true
  | .reserved01 _ _ => false
  | .decThr _ _ => true
  | .decThm _ _ => true
  | .encThr t => !Machine.isNaN t

end Sys2Proof
end

