-- ==== Sys2Proof/Decode.lean ====
section
/-! DEFINITION. Request words and their verdicts (spec R55, R56, R57, R65), the encoder, and the written form
of a request (spec R66). A decode and an encode request are told apart by the path they arrive on, not by a bit. -/

namespace Sys2Proof

/-- A request word on its path (spec R55, R56). -/
inductive RequestWord where
  | dreq (w : Dreq)
  | ereq (w : Binary32)
deriving DecidableEq, Repr

/-- Why a request word spells no request, by name. -/
inductive DecodeReject where
  /-- An encode request word that spells a NaN: "refused-NaN" (spec R65). -/
  | nanThreshold
deriving DecidableEq, Repr

/-- Why bits of a given length spell no request, by name. -/
inductive BitsReject where
  /-- A length that is neither that of a `DREQ` nor that of an `EREQ`. -/
  | noRequestOfThisLength
  /-- A bit is set above the request word's own bits. -/
  | bitsAboveTheWord
  /-- The bits are a request word, and it is rejected. -/
  | rejectedWord (r : DecodeReject)
deriving DecidableEq, Repr

/-- The `DREQ` of a mode and two bytes: mode in bits 17 to 16, b_hi in 15 to 8, b_lo in 7 to 0 (spec R55). -/
def dreqOf (mode : Mode) (bLo bHi : Byte) : Dreq := mode ++ bHi ++ bLo

/-- `DREQ[17:16]` (spec R55). -/
def dreqMode (w : Dreq) : Mode := w.extractLsb' 16 2

/-- `DREQ[15:8]` (spec R55). -/
def dreqHi (w : Dreq) : Byte := w.extractLsb' 8 8

/-- `DREQ[7:0]` (spec R55). -/
def dreqLo (w : Dreq) : Byte := w.extractLsb' 0 8

/-- The verdict on a request word, total (spec R65). -/
def decode : RequestWord → Except DecodeReject Instr
  | .dreq w =>
    if dreqMode w = 0b00#2 then .ok (.decPix (dreqLo w) (dreqHi w))
    else if dreqMode w = 0b01#2 then .ok (.reserved01 (dreqLo w) (dreqHi w))
    else if dreqMode w = 0b10#2 then .ok (.decThr (dreqLo w) (dreqHi w))
    else .ok (.decThm (dreqLo w) (dreqHi w))
  | .ereq t => if Machine.isNaN t then .error .nanThreshold else .ok (.encThr t)

/-- The mode code of each operation, spec R57; the encode path has none. -/
def modeOf : Instr → Option Mode
  | .decPix _ _ => some 0b00
  | .reserved01 _ _ => some 0b01
  | .decThr _ _ => some 0b10
  | .decThm _ _ => some 0b11
  | .encThr _ => none

/-- The request word of a request (spec R55, R56, R57). -/
def encode : Instr → RequestWord
  | .decPix bLo bHi => .dreq (dreqOf 0b00 bLo bHi)
  | .reserved01 bLo bHi => .dreq (dreqOf 0b01 bLo bHi)
  | .decThr bLo bHi => .dreq (dreqOf 0b10 bLo bHi)
  | .decThm bLo bHi => .dreq (dreqOf 0b11 bLo bHi)
  | .encThr t => .ereq t

/-- The request word that `nbits` bits with value `w` are. 18 bits, or those in whole bytes (24, the six above the word
zero), are a `DREQ`; 32 bits are an `EREQ`. The length stands for the path (spec R64: the length of a
request is known from the path it is presented on). DESIGN CHOICE: log 4. -/
def requestOfBits (nbits w : Nat) : Except BitsReject RequestWord :=
  if nbits = 18 ∨ nbits = 24 then
    if w < 2 ^ 18 then .ok (.dreq (BitVec.ofNat 18 w)) else .error .bitsAboveTheWord
  else if nbits = 32 then
    if w < 2 ^ 32 then .ok (.ereq (BitVec.ofNat 32 w)) else .error .bitsAboveTheWord
  else .error .noRequestOfThisLength

/-- The verdict on bits of a given length. -/
def decodeBits (nbits w : Nat) : Except BitsReject Instr :=
  match requestOfBits nbits w with
  | .error e => .error e
  | .ok r =>
    match decode r with
    | .ok i => .ok i
    | .error e => .error (.rejectedWord e)

/-- The instruction the decoder reads from a table row's word. -/
def decodeTableWord (nbits w : Nat) : Option Instr :=
  match decodeBits nbits w with
  | .ok i => some i
  | .error _ => none

/-- One hexadecimal digit, upper case. -/
def hexDigit (n : Nat) : Char :=
  if n < 10 then Char.ofNat (48 + n) else Char.ofNat (55 + n)

/-- `n` hexadecimal digits of a value, most significant first. -/
def hexDigits : Nat → Nat → List Char
  | 0, _ => []
  | n + 1, v => hexDigits n (v / 16) ++ [hexDigit (v % 16)]

/-- `0x` and two digits for a byte, eight for a binary32 pattern (spec R66). -/
def written0x (digits v : Nat) : List Char := ['0', 'x'] ++ hexDigits digits v

/-- The characters of a decode request: mnemonic, low byte, high byte (spec R66). -/
def writtenDecode (mnemonic : List Char) (bLo bHi : Byte) : List Char :=
  mnemonic ++ [' '] ++ written0x 2 bLo.toNat ++ [',', ' '] ++ written0x 2 bHi.toNat

/-- The written form of a request (spec R66), as characters; the reserved code has none. An encode request is written
with its `0x` binary32 pattern, one of the two forms the rule allows. -/
def written : Instr → Option (List Char)
  | .decPix bLo bHi => some (writtenDecode ['D', 'E', 'C', '_', 'P', 'I', 'X'] bLo bHi)
  | .reserved01 _ _ => none
  | .decThr bLo bHi => some (writtenDecode ['D', 'E', 'C', '_', 'T', 'H', 'R'] bLo bHi)
  | .decThm bLo bHi => some (writtenDecode ['D', 'E', 'C', '_', 'T', 'H', 'M'] bLo bHi)
  | .encThr t => some (['E', 'N', 'C', '_', 'T', 'H', 'R', ' '] ++ written0x 8 t.toNat)

end Sys2Proof
end

