-- ==== Sys2Proof/Config.lean ====
section
/-! DEFINITION. What an implementation or its surroundings fix: the parameters a model takes as arguments
(spec R6 and spec/92_eei_decisions.md, "OPEN parameters, gathered"), and the free values. -/

namespace Sys2Proof

/-- `ENC_ROUND` (spec R96, decision D13): how the quotient of the encoder becomes an integer. -/
inductive EncRound where
  | towardZero
  | nearestEven
  | floor
deriving DecidableEq, Repr

/-- `ENC_NEG_LAYOUT` (spec R99, decision D14): where the sign of a negative threshold goes. -/
inductive EncNegLayout where
  | smOr
  | magnitudeOnly
  | twosComplementLow12
deriving DecidableEq, Repr

/-- The parameters. The six addresses and the chunk size are OPEN (decision D20, spec R28, R39): a statement
about every state is a statement about every value of them. -/
structure Params where
  pixelBase    : Addr
  thermBase    : Addr
  thrHighBase  : Addr
  thrLowBase   : Addr
  thrHystBase  : Addr
  intFlagBase  : Addr
  chunkSize    : Nat
  encRound     : EncRound
  encNegLayout : EncNegLayout
deriving DecidableEq, Repr

/-- Two register pairs that share no register. -/
abbrev Params.pairsDisjoint (a b : Addr) : Prop :=
  a.toNat + 2 ≤ b.toNat ∨ b.toNat + 2 ≤ a.toNat

/-- The constraints of the OPEN-parameter table of spec/92_eei_decisions.md: each base has room for its bytes
below 0x100, the three threshold pairs are pairwise disjoint, and the chunk size is positive. -/
abbrev Params.wf (p : Params) : Prop :=
  p.pixelBase.toNat + 128 ≤ 256 ∧ p.thermBase.toNat + 2 ≤ 256 ∧
  p.thrHighBase.toNat + 2 ≤ 256 ∧ p.thrLowBase.toNat + 2 ≤ 256 ∧ p.thrHystBase.toNat + 2 ≤ 256 ∧
  p.intFlagBase.toNat + 8 ≤ 256 ∧
  Params.pairsDisjoint p.thrHighBase p.thrLowBase ∧ Params.pairsDisjoint p.thrHighBase p.thrHystBase ∧
  Params.pairsDisjoint p.thrLowBase p.thrHystBase ∧ 0 < p.chunkSize

/-- The two decided parameters at the spec's defaults: `ENC_ROUND = toward_zero`, `ENC_NEG_LAYOUT = sm_or` (spec R6). -/
abbrev Params.encDefaults (p : Params) : Prop :=
  p.encRound = .towardZero ∧ p.encNegLayout = .smOr

/-- The parameters right after reset. The encoder's two are the spec's defaults (spec R6). The chunk size 32 is the one of
AMG's example (spec/95 S5) and the addresses are those commonly published for the family (spec/93 G1).
PRESUMED and unsafe: log 3. -/
def Params.presumed : Params where
  pixelBase := 0x80
  thermBase := 0x0E
  thrHighBase := 0x08
  thrLowBase := 0x0A
  thrHystBase := 0x0C
  intFlagBase := 0x10
  chunkSize := 32
  encRound := .towardZero
  encNegLayout := .smOr

/-- FREE VALUE. The byte the device returns for a register of which nothing is known, one for each such byte read
(spec/93 U12 "any value"; log 5). It has no body: nothing can be proved of it. -/
opaque Config.freeByte : Nat → Byte

end Sys2Proof
end

