-- ==== Sys2Proof/Machine/State.lean ====
section
/-! DEFINITION. What the machine is made of. The block has no state (spec R13, R14, R15, R16, R20, R22, R24); State holds its ports
(spec R17, R18) and its one agent, the environment: the program of accesses and requests, the register space, the
responses, and what the transport and the device will do (spec R105). -/

namespace Sys2Proof.Machine

/-- The levels on the decode path's input ports (spec R17). -/
structure DecodeIn where
  inValid : Bool
  mode    : Mode
  bLo     : Byte
  bHi     : Byte
deriving DecidableEq, Repr

/-- The outputs of a defined decode request (spec R17). They are absent where `out_valid` is 0 (spec R19: an option
type with none, not zero). -/
structure DecodeResult where
  word  : Word
  field : Field
  ival  : Word
  fval  : Binary32
deriving DecidableEq, Repr

/-- The levels on the encode path's input ports (spec R18). -/
structure EncodeIn where
  encValid : Bool
  t        : Binary32
deriving DecidableEq, Repr

/-- The outputs of a defined encode request (spec R18). -/
structure EncodeResult where
  q   : Word
  rLo : Byte
  rHi : Byte
deriving DecidableEq, Repr

/-- A response of the block to a request (spec R105). -/
inductive Response where
  | decode (r : DecodeResult)
  | encode (r : EncodeResult)
deriving DecidableEq, Repr

/-- What a call of the environment returns: AMG's error kinds have names and no codes (spec R113); `ValueOutOfRange` is
no status, the clamp is silent (spec R116). -/
inductive CallStatus where
  | ok
  /-- spec R114 -/
  | initializationFailure
  /-- spec R115 -/
  | transactionFailure
deriving DecidableEq, Repr

/-- The transport handle (spec R24, R42, R132). -/
inductive Transport where
  | notOpened
  | opened (busAddress : Nat)
  | failed
deriving DecidableEq, Repr

/-- One bus transaction as the engine issues it (spec R38, R39, R41, R42). -/
inductive BusAccess where
  /-- Write of one address byte, then a read of `count` bytes. -/
  | read (address count : Nat)
  /-- The address byte and the payload in one transport write. -/
  | write (address : Nat) (bytes : List Byte)
  /-- `Open(address)`. -/
  | opening (busAddress : Nat)
deriving DecidableEq, Repr

/-- What the transport makes of one bus transaction (spec R115; for Open, whether a device acknowledges). -/
inductive BusOutcome where
  | succeeds
  | fails
deriving DecidableEq, Repr

/-- One item of the environment's program: a request, an environment access, the storing of an output, or a named
sequence (spec R105). -/
inductive Item where
  /-- Drive the decode path's input ports for one evaluation (spec R17, R55). -/
  | decodeRequest (d : DecodeIn)
  /-- Drive the encode path's input ports for one evaluation (spec R18, R56). -/
  | encodeRequest (e : EncodeIn)
  /-- Both paths at the same instant (spec R18, R122). -/
  | bothRequests (d : DecodeIn) (e : EncodeIn)
  /-- Present sample `k` of the raw byte buffer to the decode path (spec R33, R40). -/
  | sample (mode : Mode) (k : Nat)
  /-- The environment stores the temperature on `fval` (spec R23, R107). -/
  | storeValue
  /-- `MemWrite(base, 2, r_hi r_lo)` of the encode path's outputs (spec R32, R109). -/
  | storeThreshold (base : Addr)
  /-- `Open(address)` of the driver's initialisation (spec R42, R114, R132). -/
  | openDevice (busAddress : Nat)
  /-- `Read(register, count)` (spec R38, R39). -/
  | read (register : Addr) (count : Nat)
  /-- `Read8(register)` (spec R41). -/
  | read8 (register : Addr)
  /-- `Write(register, bytes)` (spec R41). -/
  | write (register : Addr) (bytes : List Byte)
  /-- `Write8(register, value)` (spec R41). -/
  | write8 (register : Addr) (value : Byte)
  /-- `DEC_FRAME base` (spec R107). -/
  | decFrame (base : Addr)
  /-- `RD_THM` (spec R108). -/
  | rdThm
  /-- `ENC_TRIPLE high, low, hyst` (spec R109). -/
  | encTriple (high low hyst : Binary32)
  /-- `RD_THR base` (spec R110). -/
  | rdThr (base : Addr)
  /-- The raw copy of up to 8 bytes of the Interrupt Flag Block (spec R112). -/
  | rdFlags (count : Fin 9)
deriving DecidableEq, Repr

/-- The register space: (address, byte) pairs, addresses strictly rising. An unlisted register is one of
which nothing is known: it reads as a free value (log 5), so no entry equals what an unlisted address reads as. -/
abbrev Memory := List Host.Cell

/-- The block raises no exception and gets stuck nowhere (spec R120, R123): there is no fault. -/
inductive Fault where
deriving DecidableEq, Repr

/-- Why the model gives a step no meaning. Every one of them is safe: nothing can be proved of what the hardware does then
(spec R119: a refusal errs toward unprovable). -/
inductive Refusal where
  /-- Raised by exec's arms of instructions without a meaning; there are none. Safe. -/
  | notModelled (mnemonic : String)
  /-- Raised by a decode request with `mode = 0b01` (spec R62, R119). Safe. -/
  | reservedMode
  /-- Raised by an encode request whose `t` is a NaN (spec R101, R119). Safe. -/
  | nanThreshold
  /-- Raised by an access that runs past register address 0xFF (spec R37). Safe. -/
  | pastTopOfSpace
  /-- Raised by an access while no device is open (spec R132; log 14). Safe. -/
  | transportNotOpen
  /-- Raised by a read when the parameter `chunk_size` is 0, which is outside its type (spec R39; log 15). Safe. -/
  | chunkSizeNotPositive
  /-- Raised by storing an output whose valid qualifier is 0: it has no meaning and a consumer must not use it (spec R19). Safe. -/
  | outputNotValid
deriving DecidableEq, Repr

/-- The whole machine, as plain data. INVENTORY.md lists every field with its rule and its reset value. -/
structure State where
  /-- The parameters (spec R6); no step changes them. -/
  params    : Params
  /-- Decode path, input ports (spec R17). -/
  decIn     : DecodeIn
  /-- Decode path, output ports: present exactly where `out_valid` is 1 (spec R17, R19). -/
  decOut    : Option DecodeResult
  /-- Encode path, input ports (spec R18). -/
  encIn     : EncodeIn
  /-- Encode path, output ports: present exactly where `enc_out_valid` is 1 (spec R18, R19). -/
  encOut    : Option EncodeResult
  /-- The items of the environment's program still to come, the next one first (spec R105). -/
  program   : List Item
  /-- The responses given, in order (spec R105). -/
  responses : List Response
  /-- The temperatures the environment has stored, in order (spec R23, R107). -/
  stored    : List Binary32
  /-- The sensor's register space (spec R27). -/
  regs      : Memory
  /-- The raw byte buffer of the last read, absent after a failed one (spec R29, R40). -/
  buf       : Option (List Byte)
  /-- The transport handle (spec R24). -/
  transport : Transport
  /-- What the environment's calls returned, in order (spec R113). -/
  calls     : List CallStatus
  /-- The bus transactions issued, in order (spec R38, R39, R41). -/
  busLog    : List BusAccess
  /-- The outcomes the transport will give, the next one first; when none is left a transaction succeeds (log 9). -/
  bus       : List BusOutcome
  /-- The updates the device makes, one list before each byte read; when none is left the device changes nothing (log 10). -/
  device    : List (List (Addr × Byte))
  /-- How many free values have been drawn (log 5). -/
  freeCount : Nat
deriving DecidableEq, Repr

/-- The machine right after reset with the given parameters: nothing presented, nothing known of the register space,
no program (spec R25, R129; log 2, 5, 6, 9, 10, 14). -/
def State.resetWith (p : Params) : State where
  params := p
  decIn := { inValid := false, mode := 0, bLo := 0, bHi := 0 }
  decOut := none
  encIn := { encValid := false, t := 0 }
  encOut := none
  program := []
  responses := []
  stored := []
  regs := []
  buf := none
  transport := .notOpened
  calls := []
  busLog := []
  bus := []
  device := []
  freeCount := 0

/-- The machine right after reset (spec R25); the parameters are those of log 3. -/
def State.reset : State := State.resetWith Params.presumed

end Sys2Proof.Machine
end

