-- ==== Sys2Proof/Machine/Flags.lean ====
section
/-! DEFINITION. The block has no flag, condition code or saturation indication (spec R16, R102). The one-bit outputs it has are the
valid qualifiers of its two paths (spec R19). -/

namespace Sys2Proof.Machine

/-- The level on `out_valid` (spec R19). -/
def State.outValid (s : State) : Bool := s.decOut.isSome

/-- The level on `enc_out_valid` (spec R19). -/
def State.encOutValid (s : State) : Bool := s.encOut.isSome

/-- `out_valid = 1` exactly when `in_valid = 1` and `mode` is not the reserved code (spec R19). -/
def decodeValid (d : DecodeIn) : Bool := d.inValid && d.mode != 0b01

/-- `enc_out_valid = 1` exactly when `enc_valid = 1` and `t` is not a NaN (spec R19), given whether it is one. -/
def encodeValid (e : EncodeIn) (nan : Bool) : Bool := e.encValid && !nan

end Sys2Proof.Machine
end

