-- ==== Sys2Proof/Machine/Operands.lean ====
section
/-! DEFINITION. Operand assembly of a decode request (spec R60): word, field, and the two readings of the field. -/

namespace Sys2Proof.Machine

/-- `Word16`: the little-endian word of the byte of the lower and the byte of the next address (spec R69). -/
def word16 (bLo bHi : Byte) : Word := (bHi.setWidth 16 <<< 8) ||| bLo.setWidth 16

/-- `Field12`: the low 12 bits; bits 15 to 12 are masked, not trusted (spec R70). -/
def field12 (w : Word) : Field := w.extractLsb' 0 12

/-- `SignMag12`: bit 11 is the sign, bits 10 to 0 the magnitude (spec R74). -/
def signMag12 (f : Field) : Int :=
  let m : Int := (f.extractLsb' 0 11).toNat
  if f.getLsbD 11 then -m else m

/-- `TwosComp12`: explicit sign extension, `u(f) - 4096` where bit 11 is set (spec R80). -/
def twosComp12 (f : Field) : Int :=
  if f.getLsbD 11 then (f.toNat : Int) - 4096 else f.toNat

/-- `tc_16`: the 16-bit two's-complement pattern of an integer (spec R8, R59). -/
def tc16 (i : Int) : Word := BitVec.ofInt 16 i

/-- `tc_12` (spec R8). -/
def tc12 (i : Int) : Field := BitVec.ofInt 12 i

/-- Sample `k` of a raw byte buffer: bytes `2k` and `2k+1`, low byte first (spec R33). -/
def sampleOf (buf : List Byte) (k : Nat) : Option (Byte × Byte) :=
  match buf[2 * k]?, buf[2 * k + 1]? with
  | some lo, some hi => some (lo, hi)
  | _, _ => none

/-- `MemRead` of one or two bytes as an integer: the byte of the lowest address is the least significant (spec R31). -/
def leValue (bytes : List Byte) : Nat :=
  match bytes with
  | [] => 0
  | b :: rest => b.toNat + 256 * leValue rest

/-- The `n` low bytes of a value, least significant first (spec R32). -/
def bytesLE (n : Nat) (v : Word) : List Byte :=
  match n with
  | 0 => []
  | n + 1 => v.extractLsb' 0 8 :: bytesLE n (v >>> 8)

end Sys2Proof.Machine
end

