-- ==== Sys2Proof/Machine/Scaling.lean ====
section
/-! DEFINITION. The constants and the scaling stage of the decode path (spec R85 to R92). All is exact: a count times a power
of two (spec R90). -/

namespace Sys2Proof.Machine

/-- `PIX_LSB = 2^-2` (spec R86), as the exponent below zero. -/
def pixLsbExp : Nat := 2

/-- `THM_LSB = 2^-4` (spec R87). -/
def thmLsbExp : Nat := 4

/-- `THR_LSB = PIX_LSB` (spec R88). -/
def thrLsbExp : Nat := pixLsbExp

/-- The binary32 pattern of `PIX_LSB` (spec R86). -/
def pixLsb : Binary32 := 0x3E800000

/-- The binary32 pattern of `THM_LSB` (spec R87). -/
def thmLsb : Binary32 := 0x3D800000

/-- `IntToFloat`: the floating-point number equal to the count (spec R85). -/
def intToFloat (i : Int) : Binary32 := float32Of i 0

/-- AMG's `signedMagnitudeToFloat(word)`: the count before scaling, as a floating-point number (spec R68). -/
def signedMagnitudeToFloat (w : Word) : Binary32 := intToFloat (signMag12 (field12 w))

/-- AMG's `twosComplement12ToFloat(word)` (spec R68). -/
def twosComplement12ToFloat (w : Word) : Binary32 := intToFloat (twosComp12 (field12 w))

/-- `Float32Of(Scale(i, 2^-k))` (spec R89): the count times its constant, as a pattern. -/
def scale (i : Int) (k : Nat) : Binary32 := float32Of i k

end Sys2Proof.Machine
end

