-- ==== Sys2Proof/Machine/Threshold.lean ====
section
/-! DEFINITION. The steps of the threshold encoder (spec R94 to R101). -/

namespace Sys2Proof.Machine

/-- `ENC_MAX`, the clamp bound (spec R21, R97). -/
def encMax : Int := 4095

/-- The quotient `x = t / 0.25 = 4 t` of a finite `t` is the exact rational `quotientNum t / quotientDen` (spec R95). -/
def quotientNum (t : Binary32) : Int := fScaled t

/-- The denominator of the quotient: the value of `t` is `fScaled t / 2^150`, four times that has `2^148`. -/
def quotientDen : Nat := 2 ^ 148

/-- `ToInt` of the rational `num / den` on unbounded integers (spec R96): toward zero by default, or to the nearest
integer with ties to even, or down. -/
def toInt (r : EncRound) (num : Int) (den : Nat) : Int :=
  match r with
  | .towardZero => if num < 0 then -((num.natAbs / den : Nat) : Int) else ((num.natAbs / den : Nat) : Int)
  | .floor => num / (den : Int)
  | .nearestEven =>
    let below := num / (den : Int)
    let rest := num % (den : Int)
    if 2 * rest < den then below
    else if (den : Int) < 2 * rest then below + 1
    else if below % 2 = 0 then below
    else below + 1

/-- `Clamp(q0, -4095, 4095)`: saturating (spec R97). -/
def clamp (q0 : Int) : Int :=
  if q0 < -encMax then -encMax else if encMax < q0 then encMax else q0

/-- The clamped quotient of a `t` that is no NaN; an infinity saturates as every value beyond the range does (spec R101). -/
def clampedQuotient (r : EncRound) (t : Binary32) : Int :=
  if isInf t then (if fSign t then -encMax else encMax)
  else clamp (toInt r (quotientNum t) quotientDen)

/-- The 12-bit register value of a clamped quotient (spec R98, R99). -/
def registerValue (l : EncNegLayout) (q : Int) : Field :=
  match l with
  | .smOr => BitVec.ofNat 12 q.natAbs ||| (if q < 0 then 1#12 <<< 11 else 0)
  | .magnitudeOnly => BitVec.ofNat 12 q.natAbs
  | .twosComplementLow12 => tc12 q

/-- `SplitField`, low register: bits 7 to 0 (spec R100). -/
def splitLo (f : Field) : Byte := f.extractLsb' 0 8

/-- `SplitField`, high register: bits 11 to 8 in the low nibble, the upper nibble 0 (spec R63, R100). -/
def splitHi (f : Field) : Byte := 0#4 ++ f.extractLsb' 8 4

end Sys2Proof.Machine
end

