-- ==== Sys2Proof/Machine/Ops.lean ====
section
/-! DEFINITION. The named operations over the register space and the ports, and the two paths of the block as functions of
their input ports. There is no exception to take and none to return from (spec R120, R123, R124). -/

namespace Sys2Proof.Machine

/-- Do `f` after a step that answered a next state; a fault or a refusal stays what it is. -/
def andThen (o : Host.Outcome State Fault Refusal) (f : State → Host.Outcome State Fault Refusal) :
    Host.Outcome State Fault Refusal :=
  match o with
  | .next s => f s
  | .fault r => .fault r
  | .refused r => .refused r

/-! The register space (spec R27) -/

/-- The canonical form: addresses strictly rising and inside the 8-bit space. An unlisted register reads as no fixed
value, so no entry can equal what an unlisted address reads as. -/
def Memory.wf (m : Memory) : Bool :=
  match m with
  | [] => true
  | [(a, _)] => decide (a < 256)
  | (a, _) :: (b, v) :: rest => decide (a < b) && Memory.wf ((b, v) :: rest)

/-- The byte known to stand in a register. -/
def Memory.peek (m : Memory) (a : Nat) : Option Byte :=
  match m with
  | [] => none
  | (b, v) :: rest => if a = b then some v else Memory.peek rest a

/-- Put a byte into a register. -/
def Memory.poke (m : Memory) (a : Nat) (v : Byte) : Memory :=
  match m with
  | [] => [(a, v)]
  | (b, w) :: rest =>
    if a < b then (a, v) :: (b, w) :: rest
    else if a = b then (a, v) :: rest
    else (b, w) :: Memory.poke rest a v

/-- Forget what stands in the registers `a` to `a + n - 1`. -/
def Memory.forget (m : Memory) (a n : Nat) : Memory :=
  m.filter fun c => !(decide (a ≤ c.1) && decide (c.1 < a + n))

/-- Put bytes into consecutive registers, in address order (spec R29, R32). -/
def Memory.pokeAll (m : Memory) (a : Nat) (bytes : List Byte) : Memory :=
  match bytes with
  | [] => m
  | v :: rest => Memory.pokeAll (m.poke a v) (a + 1) rest

/-- Put the bytes of device updates into their registers. -/
def Memory.update (m : Memory) (cells : List (Addr × Byte)) : Memory :=
  match cells with
  | [] => m
  | (a, v) :: rest => Memory.update (m.poke a.toNat v) rest

/-! The paths of the block, as functions of their input ports (spec R13, R60, R94) -/

/-- The signed count of a field, by `fmt = mode[1]` (spec R57, R60). -/
def countOf (mode : Mode) (f : Field) : Int :=
  if mode.getLsbD 1 then signMag12 f else twosComp12 f

/-- The scaling constant, by `scale = mode[0]` (spec R57, R60). -/
def lsbExpOf (mode : Mode) : Nat :=
  if mode.getLsbD 0 then thmLsbExp else pixLsbExp

/-- The decode path: its outputs as a function of its inputs, absent where `out_valid` is 0 (spec R19, R60). -/
def decodePath (d : DecodeIn) : Option DecodeResult :=
  if decodeValid d then
    let word := word16 d.bLo d.bHi
    let field := field12 word
    let i := countOf d.mode field
    some { word := word, field := field, ival := tc16 i, fval := scale i (lsbExpOf d.mode) }
  else none

/-- The outputs of `ENC_THR` for a `t` that is no NaN (spec R94): the clamped quotient, and the two bytes of its
12-bit register value. -/
def encodeResult (p : Params) (t : Binary32) : EncodeResult :=
  let q := clampedQuotient p.encRound t
  let field := registerValue p.encNegLayout q
  { q := tc16 q, rLo := splitLo field, rHi := splitHi field }

/-- The encode path: its outputs as a function of its inputs and the two parameters of the encoder, absent where
`enc_out_valid` is 0 (spec R19, R94). -/
def encodePath (p : Params) (e : EncodeIn) : Option EncodeResult :=
  if encodeValid e (isNaN e.t) then some (encodeResult p e.t) else none

/-! Driving the ports -/

/-- The outputs of a decode request: the front end (spec R73), then the reading and the scaled value of this operation. -/
def decodeResult (bLo bHi : Byte) (reading : Field → Int) (lsbExp : Nat) : DecodeResult :=
  let word := word16 bLo bHi
  let field := field12 word
  let i := reading field
  { word := word, field := field, ival := tc16 i, fval := scale i lsbExp }

/-- A defined decode request is on the input ports, its result on the output ports and in the list of
responses (spec R19, R105). -/
def State.respondDecode (s : State) (mode : Mode) (bLo bHi : Byte) (r : DecodeResult) : State :=
  { s with
    decIn := { inValid := true, mode := mode, bLo := bLo, bHi := bHi }
    decOut := some r
    responses := s.responses ++ [.decode r] }

/-- No decode request exists: `out_valid` is 0 and nothing responds (spec R19, R117). -/
def State.idleDecode (s : State) (d : DecodeIn) : State :=
  { s with decIn := d, decOut := none }

/-- A defined encode request and its result (spec R19, R105). -/
def State.respondEncode (s : State) (t : Binary32) (r : EncodeResult) : State :=
  { s with
    encIn := { encValid := true, t := t }
    encOut := some r
    responses := s.responses ++ [.encode r] }

/-- No encode request exists: `enc_out_valid` is 0 (spec R19). -/
def State.idleEncode (s : State) (e : EncodeIn) : State :=
  { s with encIn := e, encOut := none }

end Sys2Proof.Machine
end

