-- ==== Sys2Proof/Machine/Bus.lean ====
section
/-! DEFINITION. The environment's accesses: the Transaction Engine's chunked read and single-transaction write over the transport
(spec R27 to R45). The block takes no part in them. -/

namespace Sys2Proof.Machine

/-- The transport's outcome for the next transaction; it succeeds when the queue gives none (log 9). -/
def State.busOutcome (s : State) : BusOutcome :=
  match s.bus with
  | [] => .succeeds
  | o :: _ => o

/-- The transaction is issued: it stands in the log and its outcome is used up. -/
def State.issue (s : State) (a : BusAccess) : State :=
  { s with busLog := s.busLog ++ [a], bus := s.bus.drop 1 }

/-- What a call returned (spec R113). -/
def State.returned (s : State) (c : CallStatus) : State :=
  { s with calls := s.calls ++ [c] }

/-- Before a byte is read the device may have changed registers (spec R36, R43; log 10). -/
def State.deviceActs (s : State) : State :=
  { s with regs := s.regs.update (s.device.headD []), device := s.device.drop 1 }

/-- One byte the device returns for a register: the byte that stands there, or a free value where nothing is known
(spec R31, U12; log 5). -/
def readByte (a : Nat) (s : State) : Byte × State :=
  let s' := s.deviceActs
  match s'.regs.peek a with
  | some v => (v, s')
  | none => (Config.freeByte s'.freeCount, { s' with freeCount := s'.freeCount + 1 })

/-- `n` bytes from consecutive registers, in address order (spec R29). -/
def readBytes (n a : Nat) (s : State) : List Byte × State :=
  match n with
  | 0 => ([], s)
  | n + 1 =>
    let first := readByte a s
    let rest := readBytes n (a + 1) first.2
    (first.1 :: rest.1, rest.2)

/-- One write-then-read transaction of `n` bytes at register `a` (spec R38); none where it failed (spec R40, R115). -/
def busRead (a n : Nat) (s : State) : Option (List Byte) × State :=
  let issued := s.issue (.read a n)
  match s.busOutcome with
  | .succeeds => let r := readBytes n a issued; (some r.1, r.2)
  | .fails => (none, issued)

/-- The engine's loop (spec R39) from `transferred` bytes on, with at most `fuel` passes; each pass transfers at least
one byte when the chunk size is positive, so `count` passes are enough. -/
def chunkLoop (fuel register count transferred : Nat) (got : List Byte) (s : State) :
    Option (List Byte) × State :=
  match fuel with
  | 0 => (some got, s)
  | fuel + 1 =>
    if transferred = count then (some got, s)
    else
      let n := min s.params.chunkSize (count - transferred)
      match busRead (register + transferred) n s with
      | (none, s') => (none, s')
      | (some bytes, s') => chunkLoop fuel register count (transferred + n) (got ++ bytes) s'

/-- The bytes of `Read(register, count)`: one transaction up to the chunk size (spec R38), else the loop (spec R39). -/
def engineBytes (register count : Nat) (s : State) : Option (List Byte) × State :=
  if count ≤ s.params.chunkSize then busRead register count s
  else chunkLoop count register count 0 [] s

/-- The device is open (spec R132; log 14). -/
def State.isOpen (s : State) : Bool :=
  match s.transport with
  | .opened _ => true
  | .notOpened => false
  | .failed => false

/-- `Read(register, count)`: the buffer is filled as a whole, or there is none and the call signals
`TransactionFailure` (spec R29, R38, R39, R40, R115). An access past 0xFF is refused (spec R37). -/
def engineRead (register : Addr) (count : Nat) (s : State) : Host.Outcome State Fault Refusal :=
  if !s.isOpen then .refused .transportNotOpen
  else if s.params.chunkSize = 0 then .refused .chunkSizeNotPositive
  else if 256 < register.toNat + count then .refused .pastTopOfSpace
  else
    match engineBytes register.toNat count s with
    | (some bytes, s') => .next ({ s' with buf := some bytes }.returned .ok)
    | (none, s') => .next ({ s' with buf := none }.returned .transactionFailure)

/-- `Write(register, bytes)`: one transaction (spec R41). A failed one leaves open what the registers then hold: nothing is
known of them (log 11). -/
def engineWrite (register : Addr) (bytes : List Byte) (s : State) : Host.Outcome State Fault Refusal :=
  if !s.isOpen then .refused .transportNotOpen
  else if 256 < register.toNat + bytes.length then .refused .pastTopOfSpace
  else
    let issued := s.issue (.write register.toNat bytes)
    match s.busOutcome with
    | .succeeds => .next ({ issued with regs := s.regs.pokeAll register.toNat bytes }.returned .ok)
    | .fails => .next ({ issued with regs := s.regs.forget register.toNat bytes.length }.returned .transactionFailure)

/-- `MemWrite(a, n, v)` (spec R32). -/
def memWrite (register : Addr) (n : Nat) (v : Word) (s : State) : Host.Outcome State Fault Refusal :=
  engineWrite register (bytesLE n v) s

/-- `Open(address)`: a device acknowledges or the setup fails. After an `InitializationFailure` no request is ever
presented, so nothing of the program is left (spec R42, R114; log 12). The spec has the handle acquired once (R24): that Open may be
repeated on an open device, and that a repeat that fails gives the open handle up, are the model's choice. DESIGN CHOICE: log 12. -/
def openDevice (busAddress : Nat) (s : State) : Host.Outcome State Fault Refusal :=
  let issued := s.issue (.opening busAddress)
  match s.busOutcome with
  | .succeeds => .next ({ issued with transport := .opened busAddress }.returned .ok)
  | .fails => .next ({ issued with transport := .failed, program := [] }.returned .initializationFailure)

end Sys2Proof.Machine
end

