-- ==== Sys2Proof/Machine/DecodeRequests.lean ====
section
/-! DEFINITION. The meanings of the decode requests (spec R62, R76, R77, R83). -/

namespace Sys2Proof.Machine

/-- `DEC_PIX`: two's complement, times 0.25 (spec R83). -/
def execDecPix (bLo bHi : Byte) (s : State) : Host.Outcome State Fault Refusal :=
  .next (s.respondDecode 0b00 bLo bHi (decodeResult bLo bHi twosComp12 pixLsbExp))

/-- The reserved mode has no meaning (spec R62): the request is refused, whatever its bytes. -/
def execReserved01 (_bLo _bHi : Byte) (_s : State) : Host.Outcome State Fault Refusal :=
  .refused .reservedMode

/-- `DEC_THR`: sign-magnitude, times 0.25 (spec R77). -/
def execDecThr (bLo bHi : Byte) (s : State) : Host.Outcome State Fault Refusal :=
  .next (s.respondDecode 0b10 bLo bHi (decodeResult bLo bHi signMag12 thrLsbExp))

/-- `DEC_THM`: sign-magnitude, times 0.0625 (spec R76). -/
def execDecThm (bLo bHi : Byte) (s : State) : Host.Outcome State Fault Refusal :=
  .next (s.respondDecode 0b11 bLo bHi (decodeResult bLo bHi signMag12 thmLsbExp))

end Sys2Proof.Machine
end

