-- ==== Sys2Proof/Machine/EncodeRequests.lean ====
section
/-! DEFINITION. The meaning of the encode request (spec R94). -/

namespace Sys2Proof.Machine

/-- `ENC_THR` (spec R94); a NaN is refused (spec R101). -/
def execEncThr (t : Binary32) (s : State) : Host.Outcome State Fault Refusal :=
  if isNaN t then .refused .nanThreshold
  else .next (s.respondEncode t (encodeResult s.params t))

end Sys2Proof.Machine
end

