-- ==== Sys2Proof/Machine/Dispatch.lean ====
section
/-! DEFINITION. One arm per request of the block. -/

namespace Sys2Proof.Machine

def exec (i : Instr) (s : State) : Host.Outcome State Fault Refusal :=
  match i with
  | .decPix bLo bHi => Sys2Proof.Machine.execDecPix bLo bHi s
  | .reserved01 bLo bHi => Sys2Proof.Machine.execReserved01 bLo bHi s
  | .decThr bLo bHi => Sys2Proof.Machine.execDecThr bLo bHi s
  | .decThm bLo bHi => Sys2Proof.Machine.execDecThm bLo bHi s
  | .encThr t => Sys2Proof.Machine.execEncThr t s

end Sys2Proof.Machine
end

