-- ==== Sys2Proof/Machine/Stream.lean ====
section
/-! DEFINITION. The request stream and the named sequences (spec R105 to R112): what each item of the environment's
program does. -/

namespace Sys2Proof.Machine

/-- The `DREQ` on the decode path's input ports (spec R55). -/
def DecodeIn.request (d : DecodeIn) : Dreq := dreqOf d.mode d.bLo d.bHi

/-- Present a request word: run the instruction it decodes to; a NaN threshold is refused (spec R65, R119). -/
def presentWord (w : RequestWord) (s : State) : Host.Outcome State Fault Refusal :=
  match decode w with
  | .ok i => exec i s
  | .error .nanThreshold => .refused .nanThreshold

/-- Present the levels of the decode path's input ports. With `in_valid = 0` there is no request, and its mode is not
looked at (spec R19, R122). -/
def presentDecode (d : DecodeIn) (s : State) : Host.Outcome State Fault Refusal :=
  if d.inValid then presentWord (.dreq d.request) s else .next (s.idleDecode d)

/-- Present the levels of the encode path's input ports. With `enc_valid = 0` there is no request, be `t` a NaN or not
(spec R19, R122). -/
def presentEncode (e : EncodeIn) (s : State) : Host.Outcome State Fault Refusal :=
  if e.encValid then presentWord (.ereq e.t) s else .next (s.idleEncode e)

/-- The levels that present sample `k` of the buffer: valid exactly where the buffer, of a read that fully succeeded, holds both
its bytes; otherwise `in_valid = 0` and the other levels stay (spec R17, R33, R40; log 17). -/
def State.sampleIn (s : State) (mode : Mode) (k : Nat) : DecodeIn :=
  match s.buf with
  | none => { s.decIn with inValid := false }
  | some bytes =>
    match sampleOf bytes k with
    | none => { s.decIn with inValid := false }
    | some (lo, hi) => { inValid := true, mode := mode, bLo := lo, bHi := hi }

/-- Store the temperature on `fval`; with `out_valid = 0` it has no meaning and must not be used (spec R19). -/
def storeValue (s : State) : Host.Outcome State Fault Refusal :=
  match s.decOut with
  | some r => .next { s with stored := s.stored ++ [r.fval] }
  | none => .refused .outputNotValid

/-- `MemWrite(base, 2, r_hi r_lo)` of the encode path's outputs (spec R32, R109). -/
def storeThreshold (base : Addr) (s : State) : Host.Outcome State Fault Refusal :=
  match s.encOut with
  | some r => memWrite base 2 (r.rHi ++ r.rLo) s
  | none => .refused .outputNotValid

/-- A read that, where it succeeds, is followed by further items; where it fails the sequence ends with no
result (spec R40, R115). -/
def readThen (base : Addr) (count : Nat) (items : List Item) (s : State) : Host.Outcome State Fault Refusal :=
  andThen (engineRead base count s) fun s' =>
    if s'.buf.isSome then .next { s' with program := items ++ s'.program } else .next s'

/-- Decode sample `k` and store its temperature. -/
def sampleAndStore (mode : Mode) (k : Nat) : List Item := [.sample mode k, .storeValue]

/-- The requests of `DEC_FRAME` after its read: sample 0 to 63, in order (spec R107). -/
def frameItems : List Item := (List.range 64).flatMap (sampleAndStore 0b00)

/-- One threshold of `ENC_TRIPLE`: encode it and write its two bytes (spec R109). -/
def encodeAndWrite (t : Binary32) (base : Addr) : List Item :=
  [.encodeRequest { encValid := true, t := t }, .storeThreshold base]

/-- The requests and writes of `ENC_TRIPLE`: high, low, hysteresis (spec R109). -/
def tripleItems (p : Params) (high low hyst : Binary32) : List Item :=
  encodeAndWrite high p.thrHighBase ++ encodeAndWrite low p.thrLowBase ++ encodeAndWrite hyst p.thrHystBase

/-- What one item of the program does to the machine, once it has been taken off the program (spec R105). -/
def runItem (item : Item) (s : State) : Host.Outcome State Fault Refusal :=
  match item with
  | .decodeRequest d => presentDecode d s
  | .encodeRequest e => presentEncode e s
  | .bothRequests d e => andThen (presentDecode d s) (presentEncode e)
  | .sample mode k => presentDecode (s.sampleIn mode k) s
  | .storeValue => storeValue s
  | .storeThreshold base => storeThreshold base s
  | .openDevice busAddress => openDevice busAddress s
  | .read register count => engineRead register count s
  | .read8 register => engineRead register 1 s
  | .write register bytes => engineWrite register bytes s
  | .write8 register value => engineWrite register [value] s
  | .decFrame base => readThen base 128 frameItems s
  | .rdThm => readThen s.params.thermBase 2 (sampleAndStore 0b11 0) s
  | .encTriple high low hyst => .next { s with program := tripleItems s.params high low hyst ++ s.program }
  | .rdThr base => readThen base 2 (sampleAndStore 0b10 0) s
  | .rdFlags count => engineRead s.params.intFlagBase count.val s

/-- The item that presents a request word on its path, its valid qualifier 1 (spec R55, R56). -/
def itemOf (w : RequestWord) : Item :=
  match w with
  | .dreq w => .decodeRequest { inValid := true, mode := dreqMode w, bLo := dreqLo w, bHi := dreqHi w }
  | .ereq t => .encodeRequest { encValid := true, t := t }

end Sys2Proof.Machine
end

