-- ==== Sys2Proof/Machine/Step.lean ====
section
/-! DEFINITION. One step of the machine, and how a request word comes to be the next one. -/

namespace Sys2Proof.Machine

/-- One step: the next item of the environment's program is taken off and done, to its end (spec R44, R105). The run ends when
the list is exhausted (spec R105): with nothing to do the machine stays as it is (log 2). -/
def step (s : State) : Host.Outcome State Fault Refusal :=
  match s.program with
  | [] => .next s
  | item :: rest => runItem item { s with program := rest }

/-- The machine with the request word of `nbits` bits `w` as the next item of the program, to be presented with its valid
qualifier 1. Bits that are no request word leave the machine as it is. -/
def State.withFetchWord (s : State) (nbits w : Nat) : State :=
  match requestOfBits nbits w with
  | .ok r => { s with program := itemOf r :: s.program }
  | .error _ => s

end Sys2Proof.Machine
end

