-- ==== Sys2Proof/Safety.lean ====
section
/-! DEFINITION. What counts as a sound state of the machine, in the terms the statements use. -/

namespace Sys2Proof.Machine

/-- The output ports are the function of the input ports that the spec defines (spec R13, R25): the block keeps nothing. -/
def State.portsAgree (s : State) : Prop :=
  s.decOut = decodePath s.decIn ∧ s.encOut = encodePath s.params s.encIn

/-- A temperature the decoder can produce: positive zero or a normal number, so no NaN, infinity or subnormal (spec R90, R92). -/
def goodTemperature (f : Binary32) : Prop := f = 0 ∨ isNormal f = true

/-- What every response satisfies, whatever the request (spec R59, R63, R70, R90, R97). -/
def Response.sound : Response → Prop
  | .decode r =>
    r.field = field12 r.word ∧ -2048 ≤ r.ival.toInt ∧ r.ival.toInt ≤ 2047 ∧ goodTemperature r.fval
  | .encode r => -4095 ≤ r.q.toInt ∧ r.q.toInt ≤ 4095 ∧ r.rHi.toNat < 16

/-- What every bus transaction satisfies: it stays inside the register space (spec R37), and a read never exceeds the
chunk size (spec R39). -/
def BusAccess.sound (p : Params) : BusAccess → Prop
  | .read a n => n ≤ p.chunkSize ∧ a + n ≤ 256
  | .write a bytes => a + bytes.length ≤ 256
  | .opening _ => True

/-- The invariant of the machine. -/
structure State.Inv (s : State) : Prop where
  regs_wf   : s.regs.wf = true
  ports     : s.portsAgree
  responses : ∀ r ∈ s.responses, r.sound
  stored    : ∀ f ∈ s.stored, goodTemperature f
  busLog    : ∀ a ∈ s.busLog, a.sound s.params

/-- A run goes wrong in no other way than by a refusal of one of these (spec R119, R37 and the model's own). -/
def refusesInstruction (i : Instr) : Option Refusal :=
  match i with
  | .decPix _ _ => none
  | .reserved01 _ _ => some .reservedMode
  | .decThr _ _ => none
  | .decThm _ _ => none
  | .encThr t => if isNaN t then some .nanThreshold else none

end Sys2Proof.Machine
end

