-- ==== Sys2Proof/Certificates/Slice0/Obligations.lean ====
section
/-! DEFINITION. The statements for the provers. Each docstring names the rule of spec/ it formalises. -/

namespace Sys2Proof.Spec

open Sys2Proof.Machine

/-- Rounding toward zero of an exact rational (spec R96: floor for x >= 0, ceil for x < 0). -/
def truncate (x : ℚ) : ℤ := if x < 0 then ⌈x⌉ else ⌊x⌋

/-- `i` is `x` rounded as `ENC_ROUND` says (spec R96); for `nearest_even` the nearest integer, the even one of two. -/
def RoundsTo (r : EncRound) (x : ℚ) (i : ℤ) : Prop :=
  match r with
  | .towardZero => i = truncate x
  | .floor => i = ⌊x⌋
  | .nearestEven => |x - i| ≤ 1 / 2 ∧ (|x - i| = 1 / 2 → i % 2 = 0)

/-- The saturation of an integer to [-4095, 4095] (spec R97). -/
def saturate (i : ℤ) : ℤ := max (-4095) (min 4095 i)

/-- The sign-magnitude reading of the low 12 bits of a word (spec R74). -/
def signMagnitudeOf (w : BitVec 16) : ℤ :=
  if w.getLsbD 11 then -((w &&& 0x7FF).toNat : ℤ) else ((w &&& 0x7FF).toNat : ℤ)

/-- The two's-complement reading of the low 12 bits of a word (spec R80). -/
def twosComplementOf (w : BitVec 16) : ℤ :=
  if w.getLsbD 11 then ((w &&& 0xFFF).toNat : ℤ) - 4096 else ((w &&& 0xFFF).toNat : ℤ)

/-- The machine after a decode request was answered: its ports driven, its result on the output ports, one response more, and all
else as it was. -/
def answeredDecode (s : State) (mode : Mode) (bLo bHi : Byte) (r : DecodeResult) : State :=
  { s with
    decIn := { inValid := true, mode := mode, bLo := bLo, bHi := bHi }
    decOut := some r
    responses := s.responses ++ [.decode r] }

/-- The machine after an encode request was answered. -/
def answeredEncode (s : State) (t : Binary32) (r : EncodeResult) : State :=
  { s with
    encIn := { encValid := true, t := t }
    encOut := some r
    responses := s.responses ++ [.encode r] }

/-- What a decode result holds, given the reading's count and the constant (spec R69, R70, R59, R89, R92). -/
def DecodedAs (r : DecodeResult) (bLo bHi : Byte) (count : ℤ) (lsb : ℚ) : Prop :=
  r.word = bHi ++ bLo ∧ r.field = r.word.extractLsb' 0 12 ∧ r.ival = BitVec.ofInt 16 count ∧
    isFinite r.fval = true ∧ fValue r.fval = count * lsb ∧ (count = 0 → r.fval = 0x00000000)

/-- The register space after the first `n` lists of updates that the device has queued. -/
def registersAt (s : State) (n : Nat) : Memory := (s.device.take n).foldl Memory.update s.regs

end Sys2Proof.Spec

open Sys2Proof Sys2Proof.Machine Sys2Proof.Spec

/-! ### Decode requests -/

/-- Spec R83. DEC_PIX is the request word with mode 00, and on every byte pair and in every state it answers with the
two's-complement count times 0.25, writing nothing but its own ports and its response. -/
def Obligations.DecPixScalesTwosComplementByQuarter : Prop :=
  ∀ (bLo bHi : Byte) (s : State), ∃ r : DecodeResult,
    decode (.dreq (0b00#2 ++ bHi ++ bLo)) = .ok (.decPix bLo bHi) ∧
    exec (.decPix bLo bHi) s = .next (answeredDecode s 0b00 bLo bHi r) ∧
    DecodedAs r bLo bHi (twosComplementOf r.word) (1 / 4)

/-- Derived from spec R77 (the constant is the spec's inference from R88 and its decision D12). DEC_THR is the request word with mode 10, and answers with the sign-magnitude count times 0.25. -/
def Obligations.DecThrScalesSignMagnitudeByQuarter : Prop :=
  ∀ (bLo bHi : Byte) (s : State), ∃ r : DecodeResult,
    decode (.dreq (0b10#2 ++ bHi ++ bLo)) = .ok (.decThr bLo bHi) ∧
    exec (.decThr bLo bHi) s = .next (answeredDecode s 0b10 bLo bHi r) ∧
    DecodedAs r bLo bHi (signMagnitudeOf r.word) (1 / 4)

/-- Spec R76. DEC_THM is the request word with mode 11, and answers with the sign-magnitude count times 0.0625. -/
def Obligations.DecThmScalesSignMagnitudeBySixteenth : Prop :=
  ∀ (bLo bHi : Byte) (s : State), ∃ r : DecodeResult,
    decode (.dreq (0b11#2 ++ bHi ++ bLo)) = .ok (.decThm bLo bHi) ∧
    exec (.decThm bLo bHi) s = .next (answeredDecode s 0b11 bLo bHi r) ∧
    DecodedAs r bLo bHi (signMagnitudeOf r.word) (1 / 16)

/-- Derived from spec R62 (the spec's decision D25). The request word with mode 01 decodes to the reserved code, which is refused in every state, whatever its bytes. -/
def Obligations.ReservedModeIsRefused : Prop :=
  ∀ (bLo bHi : Byte) (s : State),
    decode (.dreq (0b01#2 ++ bHi ++ bLo)) = .ok (.reserved01 bLo bHi) ∧
    exec (.reserved01 bLo bHi) s = .refused .reservedMode

/-- Spec R69. The word has b_lo in bits 7 to 0 and b_hi in bits 15 to 8; every word comes from exactly one pair of bytes, and swapping the
bytes gives the same word only where they are equal. -/
def Obligations.WordAssemblyIsABijection : Prop :=
  (∀ bLo bHi : Byte, word16 bLo bHi = bHi ++ bLo ∧ (word16 bLo bHi).extractLsb' 0 8 = bLo ∧
    (word16 bLo bHi).extractLsb' 8 8 = bHi ∧ (word16 bLo bHi = word16 bHi bLo ↔ bLo = bHi)) ∧
  (∀ w : Word, ∃ bLo bHi : Byte, word16 bLo bHi = w) ∧
  (∀ bLo bHi bLo' bHi' : Byte, word16 bLo bHi = word16 bLo' bHi' → bLo = bLo' ∧ bHi = bHi')

/-- Spec R70. The field is the word masked with 0x0FFF; in the input bytes it is b_lo under the low nibble of b_hi; every field occurs, and two
words give the same field exactly where they differ in bits 15 to 12 alone. -/
def Obligations.FieldIsTheLowTwelveBits : Prop :=
  (∀ w : Word, (field12 w).toNat = (w &&& 0x0FFF).toNat) ∧
  (∀ bLo bHi : Byte, field12 (word16 bLo bHi) = bHi.extractLsb' 0 4 ++ bLo) ∧
  (∀ (f : Field) (upper : BitVec 4), field12 (upper ++ f) = f) ∧
  (∀ w w' : Word, field12 w = field12 w' ↔ (w ^^^ w') &&& 0x0FFF = 0)

/-- Derived from spec R71 (the spec's inference from R70, R74, R80) and R61 (its decision D37). For every non-reserved mode, the field, the count and the temperature of a decode request do not depend on the upper
nibble of b_hi. -/
def Obligations.UpperNibbleHasNoEffect : Prop :=
  ∀ (mode : Mode) (bLo bHi bHi' : Byte) (s : State), mode ≠ 0b01 →
    bHi.extractLsb' 0 4 = bHi'.extractLsb' 0 4 →
    ∃ r r' : DecodeResult,
      presentDecode { inValid := true, mode := mode, bLo := bLo, bHi := bHi } s =
        .next (answeredDecode s mode bLo bHi r) ∧
      presentDecode { inValid := true, mode := mode, bLo := bLo, bHi := bHi' } s =
        .next (answeredDecode s mode bLo bHi' r') ∧
      r.field = r'.field ∧ r.ival = r'.ival ∧ r.fval = r'.fval

/-- Derived from spec R79 (the spec's inference from R76 and R77). For the same bytes DEC_THR and DEC_THM give the same word, field and count, and the temperature of DEC_THR is
four times that of DEC_THM. -/
def Obligations.DecThrIsFourTimesDecThm : Prop :=
  ∀ (bLo bHi : Byte) (s : State), ∃ r r' : DecodeResult,
    exec (.decThr bLo bHi) s = .next (answeredDecode s 0b10 bLo bHi r) ∧
    exec (.decThm bLo bHi) s = .next (answeredDecode s 0b11 bLo bHi r') ∧
    r.word = r'.word ∧ r.field = r'.field ∧ r.ival = r'.ival ∧ fValue r.fval = 4 * fValue r'.fval

/-- Derived from spec R75 ((b) to (e) are the spec's inference from R74 and R80). The properties (a) to (e) of the sign-magnitude reading. -/
def Obligations.SignMagnitudeReadingProperties : Prop :=
  (∀ f : Field, signMag12 f = if f.getLsbD 11 then -((f &&& 0x7FF).toNat : ℤ) else ((f &&& 0x7FF).toNat : ℤ)) ∧
  (∀ w : Word, signMag12 (field12 w) = signMagnitudeOf w) ∧
  (∀ f : Field, -2047 ≤ signMag12 f ∧ signMag12 f ≤ 2047) ∧
  (∀ f : Field, signMag12 f = 0 ↔ f = 0x000 ∨ f = 0x800) ∧
  (∀ k : ℕ, scale (signMag12 0x000) k = 0x00000000 ∧ scale (signMag12 0x800) k = 0x00000000) ∧
  (∀ f : Field, signMag12 (f ^^^ 0x800) = -signMag12 f) ∧
  (∀ f : Field, signMag12 f = twosComp12 f ↔ f.toNat ≤ 0x7FF ∨ f = 0xC00) ∧
  (∀ f : Field, f.toNat ≤ 0x7FF → signMag12 f = f.toNat ∧ twosComp12 f = f.toNat) ∧
  (∀ f : Field, 0x801 ≤ f.toNat → signMag12 f + twosComp12 f = -2048) ∧
  signMag12 0x800 = 0 ∧ twosComp12 0x800 = -2048 ∧ signMag12 0xC00 = -1024

/-- Derived from spec R82 ((b) to (d) are the spec's inference from R80). The two's-complement reading is a bijection between the fields and the integers from -2048 to 2047, with one zero,
and differs from the sign-magnitude reading where bit 11 is set, except at 0xC00. -/
def Obligations.TwosComplementReadingIsBijection : Prop :=
  (∀ v : ℤ, -2048 ≤ v → v ≤ 2047 → twosComp12 (tc12 v) = v) ∧
  (∀ f : Field, tc12 (twosComp12 f) = f) ∧
  (∀ f : Field, -2048 ≤ twosComp12 f ∧ twosComp12 f ≤ 2047) ∧
  twosComp12 0x800 = -2048 ∧ twosComp12 0xFFF = -1 ∧
  (∀ f : Field, twosComp12 f = 0 ↔ f = 0x000) ∧
  (∀ f : Field, f.getLsbD 11 = true → (twosComp12 f = signMag12 f ↔ f = 0xC00))

/-- Derived from spec R80 (explicit sign extension is the spec's decision D10). The two's-complement reading is u(f), less 4096 where bit 11 is set; as a 16-bit pattern it is the field with bit 11 copied
into bits 15 to 12. -/
def Obligations.TwosComplementReadingIsSignExtension : Prop :=
  ∀ f : Field, -2048 ≤ twosComp12 f ∧ twosComp12 f ≤ 2047 ∧
    (f.getLsbD 11 = false → twosComp12 f = f.toNat) ∧ (f.getLsbD 11 = true → twosComp12 f = (f.toNat : ℤ) - 4096) ∧
    tc16 (twosComp12 f) = (if f.getLsbD 11 then 0xF#4 else 0x0#4) ++ f

/-- Derived from spec R81 (the equality is the spec's inference from R70 and R80). Shifting the word left by 4 in 16 bits and arithmetically right by 4 gives the pattern of the two's-complement reading
of its field; a logical right shift gives u(field), which is wrong for every field with bit 11 set. -/
def Obligations.ShiftFormulationSignExtends : Prop :=
  ∀ w : Word, (w <<< 4).sshiftRight 4 = tc16 (twosComp12 (field12 w)) ∧
    ((w <<< 4) >>> 4).toNat = (field12 w).toNat ∧
    ((field12 w).getLsbD 11 = true → (w <<< 4) >>> 4 ≠ tc16 (twosComp12 (field12 w)))

/-- Derived from spec R91 (the spec's inference from R85 and R89, and its decision D8). The pattern of a scaled count is exact; zero is positive zero, and otherwise the sign, the exponent and the fraction are
those of the rule, a normal number with an exponent from 123 to 136. -/
def Obligations.Float32OfIsExact : Prop :=
  ∀ (i : ℤ) (k : ℕ), i.natAbs ≤ 4095 → k = 2 ∨ k = 4 →
    fValue (float32Of i k) = (i : ℚ) / 2 ^ k ∧
    (i = 0 → float32Of i k = 0x00000000) ∧
    (i ≠ 0 → isNormal (float32Of i k) = true ∧ 123 ≤ fExp (float32Of i k) ∧ fExp (float32Of i k) ≤ 136 ∧
      (fSign (float32Of i k) = true ↔ i < 0) ∧
      ∃ p, 2 ^ p ≤ i.natAbs ∧ i.natAbs < 2 ^ (p + 1) ∧ fExp (float32Of i k) = p + 127 - k ∧
        fFrac (float32Of i k) = (i.natAbs - 2 ^ p) * 2 ^ (23 - p))

/-- Derived from spec R85, R86, R87, R89 (the exactness of the conversion is the spec's own inference in R85). The conversion of a count is
exact, the two constants are 0.25 and 0.0625 with their patterns, bit 0 of the mode chooses between them, and the scaled pattern has the
value of the converted count times the constant. -/
def Obligations.ScalingMultipliesByTheConstant : Prop :=
  ∀ i : ℤ, -2048 ≤ i → i ≤ 2047 →
    fValue (intToFloat i) = i ∧ intToFloat 0 = 0x00000000 ∧
    pixLsb = 0x3E800000 ∧ fValue pixLsb = 1 / 4 ∧ thmLsb = 0x3D800000 ∧ fValue thmLsb = 1 / 16 ∧
    ∀ mode : Mode, fValue (scale i (lsbExpOf mode)) =
      fValue (intToFloat i) * (if mode.getLsbD 0 then fValue thmLsb else fValue pixLsb)

/-- Derived from spec R90 (the spec's inference from R85 to R88). The temperatures of the three decodes: each the count of its reading times its constant, none a NaN, an infinity
or a subnormal, and as values exactly the multiples of the table: i times 0.25 for i from -2048 to 2047 (DEC_PIX), for i from -2047
to 2047 (DEC_THR), and i times 0.0625 for i from -2047 to 2047 (DEC_THM). -/
def Obligations.DecodedTemperaturesAreTheTablesValues : Prop :=
  (∀ (bLo bHi : Byte) (s : State), ∃ x y z : DecodeResult,
    exec (.decPix bLo bHi) s = .next (answeredDecode s 0b00 bLo bHi x) ∧
    exec (.decThr bLo bHi) s = .next (answeredDecode s 0b10 bLo bHi y) ∧
    exec (.decThm bLo bHi) s = .next (answeredDecode s 0b11 bLo bHi z) ∧
    x.fval = scale (twosComp12 x.field) 2 ∧ goodTemperature x.fval ∧
    y.fval = scale (signMag12 y.field) 2 ∧ goodTemperature y.fval ∧
    z.fval = scale (signMag12 z.field) 4 ∧ goodTemperature z.fval) ∧
  (∀ x : ℚ, (∃ f : Field, fValue (scale (twosComp12 f) 2) = x) ↔ ∃ i : ℤ, -2048 ≤ i ∧ i ≤ 2047 ∧ x = i / 4) ∧
  (∀ x : ℚ, (∃ f : Field, fValue (scale (signMag12 f) 2) = x) ↔ ∃ i : ℤ, -2047 ≤ i ∧ i ≤ 2047 ∧ x = i / 4) ∧
  (∀ x : ℚ, (∃ f : Field, fValue (scale (signMag12 f) 4) = x) ↔ ∃ i : ℤ, -2047 ≤ i ∧ i ≤ 2047 ∧ x = i / 16)

/-- Derived from spec R68 (the spec's inference from R60). AMG's two functions return the reading of the word's low 12 bits as a floating-point number, and it is the value
of the count on `ival` before scaling. -/
def Obligations.SourceFunctionsReturnTheCount : Prop :=
  ∀ (bLo bHi : Byte) (s : State), ∃ r r' : DecodeResult,
    exec (.decPix bLo bHi) s = .next (answeredDecode s 0b00 bLo bHi r) ∧
    exec (.decThm bLo bHi) s = .next (answeredDecode s 0b11 bLo bHi r') ∧
    fValue (twosComplement12ToFloat (bHi ++ bLo)) = r.ival.toInt ∧
    fValue r.fval = fValue (twosComplement12ToFloat (bHi ++ bLo)) * (1 / 4) ∧
    fValue (signedMagnitudeToFloat (bHi ++ bLo)) = r'.ival.toInt ∧
    fValue r'.fval = fValue (signedMagnitudeToFloat (bHi ++ bLo)) * (1 / 16)

/-! ### The encode request -/

/-- Derived from spec R94 with the default parameters (the spec's decisions D13, D14, D15, D16; log 8, 19). ENC_THR answers for every threshold that is no NaN: the quotient 4 t is truncated and
saturated (an infinity saturates), its pattern is on q, and the sign-magnitude register value is split across the two bytes; a NaN is
refused. -/
def Obligations.EncThrDividesClampsAndSplits : Prop :=
  ∀ (t : Binary32) (s : State), s.params.encDefaults →
    (isNaN t = true → exec (.encThr t) s = .refused .nanThreshold) ∧
    (isNaN t = false →
      ∃ (r : EncodeResult) (q : ℤ) (field : BitVec 12),
        exec (.encThr t) s = .next (answeredEncode s t r) ∧
        (isFinite t = true → q = saturate (truncate (4 * fValue t))) ∧
        (t = 0x7F800000 → q = 4095) ∧ (t = 0xFF800000 → q = -4095) ∧
        field = BitVec.ofNat 12 q.natAbs ||| (if q < 0 then 0x800 else 0x000) ∧
        r.q = BitVec.ofInt 16 q ∧ r.rLo = field.extractLsb' 0 8 ∧ r.rHi = 0#4 ++ field.extractLsb' 8 4)

/-- Derived from spec R96 (the spec's decision D13; log 19) and R97. For each value of ENC_ROUND, q is the saturation to [-4095, 4095] of the quotient rounded in that way;
ENC_NEG_LAYOUT plays no part in q. The default is toward zero: then the rounded quotient is less than 1 from the quotient and never beyond
it in magnitude. -/
def Obligations.EncThrRoundsAsTheParameterSays : Prop :=
  (∀ (t : Binary32) (s : State), isFinite t = true →
    ∃ (r : EncodeResult) (q0 : ℤ),
      exec (.encThr t) s = .next (answeredEncode s t r) ∧
      RoundsTo s.params.encRound (4 * fValue t) q0 ∧ r.q = BitVec.ofInt 16 (saturate q0) ∧
      (q0 < -4095 → r.q = 0xF001) ∧ (4095 < q0 → r.q = 0x0FFF) ∧
      (s.params.encRound = .towardZero → |fValue t - q0 / 4| < 1 / 4 ∧ |(q0 : ℚ)| ≤ |4 * fValue t|)) ∧
  State.reset.params.encRound = .towardZero

/-- Derived from spec R99 (the spec's decision D14; log 19). For each value of ENC_NEG_LAYOUT, the 12-bit register value of the clamped quotient; the three agree where it is from
0 to 2047, and the default is sm_or, which for a magnitude up to 2047 is its sign-magnitude encoding. -/
def Obligations.EncThrLaysOutTheSignAsTheParameterSays : Prop :=
  (∀ (t : Binary32) (s : State), isNaN t = false →
    ∃ (r : EncodeResult) (field : BitVec 12),
      exec (.encThr t) s = .next (answeredEncode s t r) ∧ r.rHi ++ r.rLo = 0#4 ++ field ∧
      (s.params.encNegLayout = .smOr →
        field = BitVec.ofNat 12 r.q.toInt.natAbs ||| (if r.q.toInt < 0 then 0x800 else 0x000) ∧
        (r.q.toInt.natAbs ≤ 2047 → signMag12 field = r.q.toInt) ∧
        (2048 ≤ r.q.toInt.natAbs → field = BitVec.ofNat 12 r.q.toInt.natAbs)) ∧
      (s.params.encNegLayout = .magnitudeOnly → field = BitVec.ofNat 12 r.q.toInt.natAbs) ∧
      (s.params.encNegLayout = .twosComplementLow12 → field = r.q.extractLsb' 0 12) ∧
      (0 ≤ r.q.toInt → r.q.toInt ≤ 2047 → (field.toNat : ℤ) = r.q.toInt)) ∧
  State.reset.params.encNegLayout = .smOr

/-- Spec R102. At and beyond 1024 degrees, and for the infinities, the encoder answers with the bound, 0x0FFF above and 0xF001 below,
whatever the parameters, with enc_out_valid 1: no error, no flag, no refusal; and 1023.75 and -1023.75, which the clamp does not
touch, give the same q. -/
def Obligations.EncThrSaturatesSilently : Prop :=
  ∀ (t : Binary32) (s : State), isNaN t = false →
    ∃ r : EncodeResult, exec (.encThr t) s = .next (answeredEncode s t r) ∧
      (answeredEncode s t r).encOutValid = true ∧
      (isFinite t = true → 1024 ≤ fValue t → r.q = 0x0FFF) ∧
      (isFinite t = true → fValue t ≤ -1024 → r.q = 0xF001) ∧
      (t = 0x7F800000 → r.q = 0x0FFF) ∧ (t = 0xFF800000 → r.q = 0xF001) ∧
      (fValue t = 4095 / 4 → isFinite t = true → r.q = 0x0FFF) ∧
      (fValue t = -4095 / 4 → isFinite t = true → r.q = 0xF001)

/-- Derived from spec R101 (the spec's decision D15; log 8). The infinities saturate to 4095 and -4095, whatever the parameters; a NaN is refused, executed, presented on the
port, or decoded. -/
def Obligations.EncThrNonFiniteInputs : Prop :=
  ∀ (t : Binary32) (s : State),
    (isInf t = true → ∃ r : EncodeResult, exec (.encThr t) s = .next (answeredEncode s t r) ∧
      r.q.toInt = if t.getLsbD 31 then -4095 else 4095) ∧
    (isNaN t = true → exec (.encThr t) s = .refused .nanThreshold ∧
      presentEncode { encValid := true, t := t } s = .refused .nanThreshold ∧
      decode (.ereq t) = .error .nanThreshold)

/-- Derived from spec R54, R100, and from R63 and R61 (the spec's decisions D16 and D37). The low register holds bits 7 to 0 and the high
register bits 11 to 8 in its low nibble, its upper nibble 0; read back as a word the two are the value with bits 15 to 12 zero, and
whatever the upper nibble reads as, the field is the value. -/
def Obligations.SplitRegistersReadBackAsTheValue : Prop :=
  ∀ f : Field, splitLo f = f.extractLsb' 0 8 ∧ splitHi f = 0#4 ++ f.extractLsb' 8 4 ∧
    word16 (splitLo f) (splitHi f) = f.setWidth 16 ∧
    ∀ upper : BitVec 4, field12 (word16 (splitLo f) (upper ++ f.extractLsb' 8 4)) = f

/-- Derived from spec R103 (the spec's inference from R77, R96, R99, R100; log 19). Below 512 degrees, with rounding toward zero and the layout sm_or (or another layout and a threshold that is not
negative), encoding a threshold and decoding its two bytes with DEC_THR gives the truncated quotient times 0.25, less than 0.25 from
the threshold, and the threshold itself where that is a multiple of 0.25. With another layout it fails for -10.0. -/
def Obligations.ThresholdRoundTripWithinOneLsb : Prop :=
  (∀ (t : Binary32) (s : State), isFinite t = true → |fValue t| < 512 → s.params.encRound = .towardZero →
    s.params.encNegLayout = .smOr ∨ 0 ≤ fValue t →
    ∃ (u v : State) (e : EncodeResult) (d : DecodeResult),
      exec (.encThr t) s = .next u ∧ u.encOut = some e ∧
      exec (.decThr e.rLo e.rHi) u = .next v ∧ v.decOut = some d ∧
      fValue d.fval = 1 / 4 * truncate (4 * fValue t) ∧
      |fValue d.fval - fValue t| < 1 / 4 ∧
      (∀ n : ℤ, fValue t = n / 4 → fValue d.fval = fValue t)) ∧
  (∀ s : State, s.params.encRound = .towardZero → s.params.encNegLayout ≠ .smOr →
    ∃ (u v : State) (e : EncodeResult) (d : DecodeResult),
      exec (.encThr 0xC1200000) s = .next u ∧ u.encOut = some e ∧
      exec (.decThr e.rLo e.rHi) u = .next v ∧ v.decOut = some d ∧
      fValue 0xC1200000 = -10 ∧ fValue d.fval ≠ -10)

/-- Derived from spec R104 (the spec's inference from R97 and R99; log 19). Where the clamped quotient has magnitude m from 2048 to 4095, the register value is m, whose bytes decode to
-(m - 2048) times 0.25, whatever the sign and the rounding; so 512.0 and -512.0 both give 0x800 and 2000.0 and -2000.0 both give
0xFFF, while q tells them apart. -/
def Obligations.ThresholdBytesLoseTheValueBeyond512 : Prop :=
  ∀ (t : Binary32) (s : State), isNaN t = false → s.params.encNegLayout = .smOr →
    ∃ (u v : State) (e : EncodeResult) (d : DecodeResult),
      exec (.encThr t) s = .next u ∧ u.encOut = some e ∧
      exec (.decThr e.rLo e.rHi) u = .next v ∧ v.decOut = some d ∧ e.q.toInt.natAbs ≤ 4095 ∧
      (2048 ≤ e.q.toInt.natAbs →
        (e.rHi ++ e.rLo).toNat = e.q.toInt.natAbs ∧
        fValue d.fval = -((e.q.toInt.natAbs : ℚ) - 2048) * (1 / 4)) ∧
      (t = 0x44000000 → e.q.toInt = 2048 ∧ d.field = 0x800) ∧ (t = 0xC4000000 → e.q.toInt = -2048 ∧ d.field = 0x800) ∧
      (t = 0x44FA0000 → e.q.toInt = 4095 ∧ d.field = 0xFFF) ∧ (t = 0xC4FA0000 → e.q.toInt = -4095 ∧ d.field = 0xFFF)

/-! ### Request words -/

/-- Derived from spec R65 (the spec's inference from R55, R56, R57). Every 18-bit word and every 32-bit word has its verdict, and there is no other. -/
def Obligations.EveryRequestWordHasItsVerdict : Prop :=
  (∀ bHi bLo : Byte,
    decode (.dreq (0b00#2 ++ bHi ++ bLo)) = .ok (.decPix bLo bHi) ∧
    decode (.dreq (0b01#2 ++ bHi ++ bLo)) = .ok (.reserved01 bLo bHi) ∧
    decode (.dreq (0b10#2 ++ bHi ++ bLo)) = .ok (.decThr bLo bHi) ∧
    decode (.dreq (0b11#2 ++ bHi ++ bLo)) = .ok (.decThm bLo bHi)) ∧
  (∀ w : Dreq, ∃ (m : Mode) (bHi bLo : Byte), w = m ++ bHi ++ bLo ∧ m = w.extractLsb' 16 2 ∧
    bHi = w.extractLsb' 8 8 ∧ bLo = w.extractLsb' 0 8) ∧
  (∀ t : Binary32, (isNaN t = false → decode (.ereq t) = .ok (.encThr t)) ∧
    (isNaN t = true → decode (.ereq t) = .error .nanThreshold))

/-- Derived from spec R55, R56, R57. Decoding the request word of a well-formed request gives the request back, for every operand. -/
def Obligations.DecodeOfEncodeIsTheRequest : Prop :=
  ∀ i : Instr, WellFormed i = true → decode (encode i) = .ok i

/-- Derived from spec R55, R56, R57, R65. A request word that decodes has exactly one meaning: it is the encoding of the request it decodes
to, and that request is well-formed. -/
def Obligations.EncodeOfDecodeIsTheWord : Prop :=
  ∀ (w : RequestWord) (i : Instr), decode w = .ok i → encode i = w ∧ WellFormed i = true

/-- Words of spec/95 (DREQ of S6, V2a row 3, V2b row 13, V6 row 3; EREQ of V5 row 8; a NaN of V6 row 6) decode to the requests they
stand for. That the 18 bits of a DREQ are presented as three whole bytes is the model's choice (log 4). -/
def Obligations.TableWordsDecodeAsWritten : Prop :=
  decodeTableWord 24 0x00064 = some (.decPix 0x64 0x00) ∧
  decodeTableWord 24 0x30864 = some (.decThm 0x64 0x08) ∧
  decodeTableWord 24 0x20828 = some (.decThr 0x28 0x08) ∧
  decodeTableWord 24 0x10064 = some (.reserved01 0x64 0x00) ∧
  decodeTableWord 32 0x41C80000 = some (.encThr 0x41C80000) ∧
  decodeTableWord 32 0x7FC00000 = none

/-! ### The block as a whole -/

/-- Spec R13. What a request makes of the output ports and which response it adds depends on the request alone, not on anything else in
the state (for ENC_THR: given the encoder's two parameters, which are constants of the machine). -/
def Obligations.ResponsesDependOnTheRequestAlone : Prop :=
  ∀ (i : Instr) (s s' u : State),
    (modeOf i = none → s.params.encRound = s'.params.encRound ∧ s.params.encNegLayout = s'.params.encNegLayout) →
    exec i s = .next u →
    ∃ (u' : State) (x : Response), exec i s' = .next u' ∧
      u.responses = s.responses ++ [x] ∧ u'.responses = s'.responses ++ [x] ∧
      (∀ r, x = .decode r → u.decOut = some r ∧ u'.decOut = some r ∧ u.decIn = u'.decIn) ∧
      (∀ r, x = .encode r → u.encOut = some r ∧ u'.encOut = some r ∧ u.encIn = u'.encIn)

/-- Derived from the last sentence of spec R43. Presenting the same request twice gives the same response twice and the same ports. -/
def Obligations.PresentingTwiceGivesTheSameResponse : Prop :=
  ∀ (i : Instr) (s u : State), exec i s = .next u →
    ∃ (v : State) (x : Response), exec i u = .next v ∧ u.responses = s.responses ++ [x] ∧
      v = { u with responses := s.responses ++ [x, x] }

/-- The frame of every request (derived from spec R13, R18, R20, R23): a request that answers writes its own path's ports and one
response, and leaves the other path, the register space and everything of the environment as it was. -/
def Obligations.RequestsLeaveTheRestUnchanged : Prop :=
  ∀ (i : Instr) (s u : State), exec i s = .next u →
    (∀ a, u.regs.peek a = s.regs.peek a) ∧ u.regs = s.regs ∧
    u.params = s.params ∧ u.program = s.program ∧ u.stored = s.stored ∧ u.buf = s.buf ∧ u.transport = s.transport ∧
    u.calls = s.calls ∧ u.busLog = s.busLog ∧ u.bus = s.bus ∧ u.device = s.device ∧ u.freeCount = s.freeCount ∧
    (∃ x, u.responses = s.responses ++ [x]) ∧
    ((modeOf i).isSome = true → u.encIn = s.encIn ∧ u.encOut = s.encOut) ∧
    (modeOf i = none → u.decIn = s.decIn ∧ u.decOut = s.decOut)

/-- Derived from spec R118, R119, R120 (the spec's decisions D15, D25, D27; log 8). A request answers exactly where it is defined, a decode request then with out_valid 1; the two others, the
reserved mode and a NaN threshold, are refused by the name of their case, and nothing faults. -/
def Obligations.OnlyReservedAndNaNAreRefused : Prop :=
  ∀ (i : Instr) (s : State),
    (Defined i = true ↔ ∃ u, exec i s = .next u) ∧
    (Defined i = true → ∃ u, exec i s = .next u ∧ ((modeOf i).isSome = true → u.outValid = true) ∧
      (modeOf i = none → u.encOutValid = true)) ∧
    (Defined i = false → ∃ r, refusesInstruction i = some r ∧ exec i s = .refused r) ∧
    (∀ f, exec i s ≠ .fault f)

/-- Derived from spec R19, R117, R122. With in_valid = 0 there is no request, be the mode reserved or not; with enc_valid = 0 there is none, be t a
NaN or not: the step answers, the valid output is 0, and nothing responds. -/
def Obligations.AbsentRequestIsNoRefusal : Prop :=
  ∀ (s : State) (rest : List Item) (mode : Mode) (bLo bHi : Byte) (t : Binary32),
    (s.program = .decodeRequest { inValid := false, mode := mode, bLo := bLo, bHi := bHi } :: rest →
      ∃ u, step s = .next u ∧ u.outValid = false ∧ u.responses = s.responses ∧ u.encOut = s.encOut) ∧
    (s.program = .encodeRequest { encValid := false, t := t } :: rest →
      ∃ u, step s = .next u ∧ u.encOutValid = false ∧ u.responses = s.responses ∧ u.decOut = s.decOut)

/-- Derived from spec R19 (the spec's decisions D5, D15, D25; log 8). A presented request is refused exactly where in_valid is 1 and the mode is the reserved code, or enc_valid is 1 and t is a
NaN. Otherwise the step answers: out_valid is 1 exactly when in_valid is 1 (and the mode is not the reserved code), enc_out_valid exactly
when enc_valid is 1 (and t is no NaN), and the outputs are those of the path's function, absent where the valid output is 0. -/
def Obligations.ValidQualifiersFollowTheInputs : Prop :=
  ∀ (s : State) (rest : List Item) (d : DecodeIn) (e : EncodeIn),
    (s.program = .decodeRequest d :: rest →
      (d.inValid = true ∧ d.mode = 0b01 → step s = .refused .reservedMode) ∧
      (¬ (d.inValid = true ∧ d.mode = 0b01) → ∃ u, step s = .next u ∧ u.decOut = decodePath d ∧
        (u.outValid = true ↔ d.inValid = true ∧ d.mode ≠ 0b01) ∧ (u.decOut = none ↔ d.inValid = false))) ∧
    (s.program = .encodeRequest e :: rest →
      (e.encValid = true ∧ isNaN e.t = true → step s = .refused .nanThreshold) ∧
      (¬ (e.encValid = true ∧ isNaN e.t = true) → ∃ u, step s = .next u ∧ u.encOut = encodePath s.params e ∧
        (u.encOutValid = true ↔ e.encValid = true ∧ isNaN e.t = false) ∧ (u.encOut = none ↔ e.encValid = false)))

/-- Derived from spec R18 and R122. Requests on both paths at the same instant do not interact: where each alone is answered, so are both,
with on each path's ports what it gives alone, and both responses. That the decode response is listed before the encode response is the
model's choice (log 7). -/
def Obligations.PathsDoNotInteract : Prop :=
  ∀ (s u v : State) (rest : List Item) (d : DecodeIn) (e : EncodeIn),
    s.program = .bothRequests d e :: rest → presentDecode d s = .next u → presentEncode e s = .next v →
    ∃ w, step s = .next w ∧ w.decIn = u.decIn ∧ w.decOut = u.decOut ∧ w.encIn = v.encIn ∧ w.encOut = v.encOut ∧
      (∃ l m, u.responses = s.responses ++ l ∧ v.responses = s.responses ++ m ∧ w.responses = s.responses ++ l ++ m) ∧
      w.program = rest ∧ w.regs = s.regs

/-! ### The step -/

/-- Derived from spec R55, R56, R65, R105. A step whose next item presents a request word runs exactly the instruction the word decodes to;
and so does the step after withFetchWord. That an item of the program is one step is the model's choice (log 1); so are the placing of a
word as the next item (log 2) and the numbers of bits that withFetchWord and decodeTableWord take (log 4). -/
def Obligations.StepRunsTheDecodedRequest : Prop :=
  (∀ (s : State) (rest : List Item) (mode : Mode) (bLo bHi : Byte) (i : Instr),
    s.program = .decodeRequest { inValid := true, mode := mode, bLo := bLo, bHi := bHi } :: rest →
    decode (.dreq (mode ++ bHi ++ bLo)) = .ok i → step s = exec i { s with program := rest }) ∧
  (∀ (s : State) (rest : List Item) (t : Binary32) (i : Instr),
    s.program = .encodeRequest { encValid := true, t := t } :: rest →
    decode (.ereq t) = .ok i → step s = exec i { s with program := rest }) ∧
  (∀ (s : State) (nbits w : Nat) (i : Instr),
    decodeTableWord nbits w = some i → step (s.withFetchWord nbits w) = exec i s)

/-- The invariant of the machine: canonical register space (R27), ports that are the function of their inputs (R13), sound
responses and temperatures (R59, R63, R70, R90), and bus transactions inside the space and the chunk size (R37, R39). Every step
keeps it, from every state that has it. -/
def Obligations.StepKeepsTheInvariant : Prop :=
  ∀ s u : State, s.Inv → step s = .next u → u.Inv

/-- The machine right after reset has the invariant, whatever the parameters (R25: the outputs after reset are the function of the
inputs), and both valid outputs are 0. -/
def Obligations.ResetHasTheInvariant : Prop :=
  ∀ p : Params, (State.resetWith p).Inv ∧ (State.resetWith p).outValid = false ∧
    (State.resetWith p).encOutValid = false ∧ State.reset = State.resetWith Params.presumed ∧ Params.presumed.wf

/-- No step changes a parameter: R21 (nothing can change the constants) and R6. -/
def Obligations.NoStepChangesTheParameters : Prop :=
  ∀ s u : State, step s = .next u → u.params = s.params

/-- Derived from R23, R105, R113. The lists of responses, stored temperatures, call results and bus transactions only grow. That a step adds
at most two responses, one temperature and one call result is the model's choice of what one step is (log 1). -/
def Obligations.RecordsOnlyGrow : Prop :=
  ∀ s u : State, step s = .next u →
    (∃ l, u.responses = s.responses ++ l ∧ l.length ≤ 2) ∧ (∃ l, u.stored = s.stored ++ l ∧ l.length ≤ 1) ∧
    (∃ l, u.calls = s.calls ++ l ∧ l.length ≤ 1) ∧ (∃ l, u.busLog = s.busLog ++ l)

/-! ### The register space and the environment's accesses -/

/-- Derived from spec R40 and R29. A read of an open device inside the register space always answers: it fills the buffer with exactly the bytes
asked for and signals ok, or leaves no buffer and signals TransactionFailure; the ports, responses and stored temperatures
are untouched. -/
def Obligations.ReadIsAllOrNothing : Prop :=
  ∀ (register : Addr) (count : Nat) (s : State), s.isOpen = true → 0 < s.params.chunkSize →
    register.toNat + count ≤ 256 →
    ∃ u, engineRead register count s = .next u ∧
      ((∃ bytes, u.buf = some bytes ∧ bytes.length = count ∧ u.calls = s.calls ++ [.ok]) ∨
        (u.buf = none ∧ u.calls = s.calls ++ [.transactionFailure])) ∧
      u.decIn = s.decIn ∧ u.decOut = s.decOut ∧ u.encIn = s.encIn ∧ u.encOut = s.encOut ∧
      u.responses = s.responses ∧ u.stored = s.stored ∧ u.program = s.program

/-- Derived from spec R40. If any transaction of a read fails, the first or any later chunk, the call signals TransactionFailure and leaves
no buffer; any sample is then presented with in_valid = 0, so out_valid is 0 and nothing responds. R40 allows presenting nothing as
well: that in_valid is driven to 0 is the model's choice (log 17), and so is the queue of outcomes (log 9). -/
def Obligations.FailedReadSuppliesNoSample : Prop :=
  ∀ (register : Addr) (count j : Nat) (s : State), s.isOpen = true → 0 < s.params.chunkSize →
    register.toNat + count ≤ 256 →
    j < (if count ≤ s.params.chunkSize then 1 else (count + s.params.chunkSize - 1) / s.params.chunkSize) →
    s.bus[j]? = some .fails →
    ∃ u, engineRead register count s = .next u ∧ u.buf = none ∧ u.calls = s.calls ++ [.transactionFailure] ∧
      ∀ (mode : Mode) (k : Nat) (rest : List Item),
        ∃ v, step { u with program := .sample mode k :: rest } = .next v ∧ v.decIn.inValid = false ∧
          v.outValid = false ∧ v.responses = s.responses ∧ v.program = rest

/-- Derived from spec R29. A successful read, one that leaves a buffer, delivers exactly `count` bytes, byte i the one that stands in
register + i at the instant it is read: after the device's updates before that byte, the first i + 1 of its queue. It holds whether the
read was one transaction or several chunks, and whatever else the bus did. The registers change by those updates alone. Where every
transaction succeeds, a read inside the space is successful. The queues of outcomes and of updates are the model's choice
(log 9, 10), and so is the free value of a register of which nothing is known then (log 5), of which nothing is said. -/
def Obligations.ReadDeliversRegistersInAddressOrder : Prop :=
  (∀ (register : Addr) (count : Nat) (s u : State) (bytes : List Byte),
    engineRead register count s = .next u → u.buf = some bytes →
    bytes.length = count ∧
    (∀ i v, i < count → (registersAt s (i + 1)).peek (register.toNat + i) = some v → bytes[i]? = some v) ∧
    u.regs = registersAt s count ∧ u.device = s.device.drop count) ∧
  (∀ (register : Addr) (count : Nat) (s : State), s.isOpen = true → 0 < s.params.chunkSize →
    register.toNat + count ≤ 256 → (∀ o ∈ s.bus, o = .succeeds) →
    ∃ u bytes, engineRead register count s = .next u ∧ u.buf = some bytes)

/-- Spec R39. When every transaction succeeds, a read longer than the chunk size is issued as transactions at register,
register + chunk, and so on, each of the chunk size but the last, which takes what remains; a read up to the chunk size (R38) is one
transaction. -/
def Obligations.ChunkAddressesIncreaseMonotonically : Prop :=
  ∀ (register : Addr) (count : Nat) (s u : State), (∀ o ∈ s.bus, o = .succeeds) →
    engineRead register count s = .next u →
    (count ≤ s.params.chunkSize → u.busLog = s.busLog ++ [.read register.toNat count]) ∧
    (s.params.chunkSize < count → u.busLog = s.busLog ++
      (List.range ((count + s.params.chunkSize - 1) / s.params.chunkSize)).map fun j =>
        .read (register.toNat + j * s.params.chunkSize) (min s.params.chunkSize (count - j * s.params.chunkSize)))

/-- Derived from spec R37 (the spec's decision D23; log 16). A read or write that would run past register address 0xFF is refused; it does not wrap. -/
def Obligations.AccessPastTheTopIsRefused : Prop :=
  ∀ (register : Addr) (s : State), s.isOpen = true → 0 < s.params.chunkSize →
    (∀ count, 256 < register.toNat + count → engineRead register count s = .refused .pastTopOfSpace) ∧
    (∀ bytes, 256 < register.toNat + bytes.length → engineWrite register bytes s = .refused .pastTopOfSpace)

/-- Derived from spec R41 and R32. A write of an open device inside the space is one transaction; where it succeeds its bytes stand in
consecutive registers and every other register reads as before; the ports are untouched. Write8 and Read8 are Write and Read of one byte.
That a FAILED write leaves the registers outside its own as they were is the model's choice (log 11). -/
def Obligations.WriteIsOneTransaction : Prop :=
  (∀ (register : Addr) (bytes : List Byte) (s : State), s.isOpen = true → register.toNat + bytes.length ≤ 256 →
    ∃ u, engineWrite register bytes s = .next u ∧
      u.busLog = s.busLog ++ [.write register.toNat bytes] ∧
      (s.busOutcome = .succeeds → u.calls = s.calls ++ [.ok] ∧
        ∀ a, u.regs.peek a =
          if register.toNat ≤ a ∧ a < register.toNat + bytes.length then bytes[a - register.toNat]?
          else s.regs.peek a) ∧
      (s.busOutcome = .fails → u.calls = s.calls ++ [.transactionFailure] ∧
        ∀ a, ¬ (register.toNat ≤ a ∧ a < register.toNat + bytes.length) → u.regs.peek a = s.regs.peek a) ∧
      u.decOut = s.decOut ∧ u.encOut = s.encOut ∧ u.responses = s.responses ∧ u.buf = s.buf) ∧
  (∀ (register : Addr) (bytes : List Byte) (value : Byte) (count : Nat) (s : State) (rest : List Item),
    (s.program = .write register bytes :: rest → step s = engineWrite register bytes { s with program := rest }) ∧
    (s.program = .write8 register value :: rest → step s = engineWrite register [value] { s with program := rest }) ∧
    (s.program = .read register count :: rest → step s = engineRead register count { s with program := rest }) ∧
    (s.program = .read8 register :: rest → step s = engineRead register 1 { s with program := rest }))

/-- Derived from spec R32 (the spec's inference from R30 and its decision D34) and R31. Where every transaction succeeds, a two-byte MemWrite
puts the low byte into the register at the address and the high byte into the next and leaves every other register, and a one-byte MemWrite
puts the low byte into the register at the address alone. A MemRead of the two (R31) gives the value back, low byte first: this holds of a
device that stands still, with no update queued, which is the model's choice (log 10). -/
def Obligations.MemWriteThenMemReadIsLittleEndian : Prop :=
  ∀ (a : Addr) (v : Word) (s : State), s.isOpen = true → 0 < s.params.chunkSize →
    (∀ o ∈ s.bus, o = .succeeds) → s.device = [] →
    (a.toNat + 2 ≤ 256 → ∃ u w bytes, memWrite a 2 v s = .next u ∧
      u.regs.peek a.toNat = some (v.extractLsb' 0 8) ∧ u.regs.peek (a.toNat + 1) = some (v.extractLsb' 8 8) ∧
      (∀ x, x ≠ a.toNat → x ≠ a.toNat + 1 → u.regs.peek x = s.regs.peek x) ∧
      engineRead a 2 u = .next w ∧ w.buf = some bytes ∧
      bytes = [v.extractLsb' 0 8, v.extractLsb' 8 8] ∧ leValue bytes = v.toNat) ∧
    (∃ u, memWrite a 1 v s = .next u ∧ u.regs.peek a.toNat = some (v.extractLsb' 0 8) ∧
      ∀ x, x ≠ a.toNat → u.regs.peek x = s.regs.peek x)

/-- Derived from spec R36 and R139 (log 10). The two bytes of a sample need not come from one update of the device: when the device changes
the high register between the two bytes, the read delivers the old low byte and the new high byte. -/
def Obligations.SampleCanBeTorn : Prop :=
  ∀ (a : Addr) (s : State) (old new : Byte), s.isOpen = true → 2 ≤ s.params.chunkSize → a.toNat + 2 ≤ 256 →
    s.busOutcome = .succeeds → s.regs.peek a.toNat = some old → s.device = [[], [(a, new), (a + 1, new)]] →
    ∃ u, engineRead a 2 s = .next u ∧ u.buf = some [old, new] ∧ u.regs.peek a.toNat = some new

/-- Derived from spec R114. Where no device acknowledges, Open signals InitializationFailure, no device is open and no request is left to
present. That the whole program is dropped, and that an earlier open handle is given up, is the model's reading and choice (log 12);
that the machine then idles is its choice (log 2). -/
def Obligations.FailedOpenPresentsNoRequest : Prop :=
  ∀ (s : State) (busAddress : Nat) (rest : List Item), s.program = .openDevice busAddress :: rest →
    s.busOutcome = .fails →
    ∃ u, step s = .next u ∧ u.program = [] ∧ u.calls = s.calls ++ [.initializationFailure] ∧ u.isOpen = false ∧
      u.responses = s.responses ∧ step u = .next u

/-! ### The named sequences -/

/-- Derived from spec R107 (the pairing of the bytes is the spec's inference from R33, the order its decision D33). Where the 128-byte read of
DEC_FRAME fills the buffer, the step and the next 128 answer 64 decode requests in order, and the 64 stored temperatures are the
two's-complement readings of samples 0 to 63 times 0.25. Where it fails there is no frame: no request is presented and nothing is
stored. The number of steps is the model's choice (log 1), and so is that the items after a failed read remain (log 22). -/
def Obligations.DecFrameYieldsSixtyFourPixels : Prop :=
  ∀ (s u : State) (base : Addr) (rest : List Item),
    s.program = .decFrame base :: rest → engineRead base 128 { s with program := rest } = .next u →
    (∀ bytes, u.buf = some bytes →
      ∃ (v : State) (values : List Binary32) (results : List DecodeResult),
        Sys2Proof.core.run 129 s = .next v ∧ v.program = rest ∧
        v.stored = s.stored ++ values ∧ values.length = 64 ∧
        v.responses = s.responses ++ results.map .decode ∧ results.map DecodeResult.fval = values ∧
        (∀ k, k < 64 → ∃ lo hi r, bytes[2 * k]? = some lo ∧ bytes[2 * k + 1]? = some hi ∧ results[k]? = some r ∧
          DecodedAs r lo hi (twosComplementOf (hi ++ lo)) (1 / 4)) ∧
        v.regs = u.regs) ∧
    (u.buf = none → step s = .next u ∧ u.program = rest ∧ u.responses = s.responses ∧ u.stored = s.stored)

/-- Derived from spec R107, R40, R115. Where any transaction of a sequence's read fails, the first or any later chunk, the step of
DEC_FRAME, RD_THM or RD_THR answers, and the sequence ends there: TransactionFailure, no buffer, no request presented and no temperature
stored. That the items after the sequence remain is the model's choice (log 22), and so is the queue of outcomes (log 9). -/
def Obligations.FailedReadEndsTheSequence : Prop :=
  ∀ (s : State) (item : Item) (rest : List Item) (base : Addr) (count j : Nat), s.program = item :: rest →
    (item = .decFrame base ∧ count = 128 ∨ item = .rdThm ∧ base = s.params.thermBase ∧ count = 2 ∨
      item = .rdThr base ∧ count = 2) →
    s.isOpen = true → 0 < s.params.chunkSize → base.toNat + count ≤ 256 →
    j < (if count ≤ s.params.chunkSize then 1 else (count + s.params.chunkSize - 1) / s.params.chunkSize) →
    s.bus[j]? = some .fails →
    ∃ u, step s = .next u ∧ u.program = rest ∧ u.responses = s.responses ∧ u.stored = s.stored ∧ u.buf = none ∧
      u.calls = s.calls ++ [.transactionFailure] ∧ u.decOut = s.decOut

/-- Derived from spec R108 (the spec's inference from R31 and its decision D35). Where the two-byte read of RD_THM at the thermistor register
fills the buffer, three steps store the sign-magnitude reading of its sample times 0.0625. The number of steps is the model's
choice (log 1). -/
def Obligations.RdThmStoresTheThermistorTemperature : Prop :=
  ∀ (s u : State) (rest : List Item) (lo hi : Byte),
    s.program = .rdThm :: rest → engineRead s.params.thermBase 2 { s with program := rest } = .next u →
    u.buf = some [lo, hi] →
    ∃ (v : State) (r : DecodeResult), Sys2Proof.core.run 3 s = .next v ∧ v.program = rest ∧
      v.stored = s.stored ++ [r.fval] ∧ v.responses = s.responses ++ [.decode r] ∧
      DecodedAs r lo hi (signMagnitudeOf (hi ++ lo)) (1 / 16)

/-- Derived from spec R110 (the spec's decision D34). Where the two-byte read of RD_THR fills the buffer, three steps store the sign-magnitude
reading of its sample times 0.25. The number of steps is the model's choice (log 1). -/
def Obligations.RdThrStoresTheThreshold : Prop :=
  ∀ (s u : State) (base : Addr) (rest : List Item) (lo hi : Byte),
    s.program = .rdThr base :: rest → engineRead base 2 { s with program := rest } = .next u →
    u.buf = some [lo, hi] →
    ∃ (v : State) (r : DecodeResult), Sys2Proof.core.run 3 s = .next v ∧ v.program = rest ∧
      v.stored = s.stored ++ [r.fval] ∧ v.responses = s.responses ++ [.decode r] ∧
      DecodedAs r lo hi (signMagnitudeOf (hi ++ lo)) (1 / 4)

/-- Derived from spec R109 (the order and the two-byte writes are the spec's decision D34). With an open device and successful transactions,
ENC_TRIPLE encodes high, low and hysteresis independently, each as ENC_THR alone does, and writes each result's bytes to its pair of
registers, low byte first; every other register reads as before. The number of steps is the model's choice (log 1). -/
def Obligations.EncTripleWritesThreeRegisterPairs : Prop :=
  ∀ (s : State) (high low hyst : Binary32) (rest : List Item),
    s.program = .encTriple high low hyst :: rest → s.isOpen = true → s.params.wf →
    (∀ o ∈ s.bus, o = .succeeds) →
    isNaN high = false → isNaN low = false → isNaN hyst = false →
    ∃ (v : State) (a b c : EncodeResult), Sys2Proof.core.run 7 s = .next v ∧ v.program = rest ∧
      exec (.encThr high) s = .next (answeredEncode s high a) ∧
      exec (.encThr low) s = .next (answeredEncode s low b) ∧
      exec (.encThr hyst) s = .next (answeredEncode s hyst c) ∧
      v.responses = s.responses ++ [.encode a, .encode b, .encode c] ∧
      v.regs.peek s.params.thrHighBase.toNat = some a.rLo ∧ v.regs.peek (s.params.thrHighBase.toNat + 1) = some a.rHi ∧
      v.regs.peek s.params.thrLowBase.toNat = some b.rLo ∧ v.regs.peek (s.params.thrLowBase.toNat + 1) = some b.rHi ∧
      v.regs.peek s.params.thrHystBase.toNat = some c.rLo ∧ v.regs.peek (s.params.thrHystBase.toNat + 1) = some c.rHi ∧
      (∀ x, x ≠ s.params.thrHighBase.toNat → x ≠ s.params.thrHighBase.toNat + 1 →
        x ≠ s.params.thrLowBase.toNat → x ≠ s.params.thrLowBase.toNat + 1 →
        x ≠ s.params.thrHystBase.toNat → x ≠ s.params.thrHystBase.toNat + 1 → v.regs.peek x = s.regs.peek x)

/-- Spec R112. The bytes of the Interrupt Flag Block are handed on as they are read: the buffer is that of the read at its
base, and no request is presented. -/
def Obligations.InterruptFlagsPassUnchanged : Prop :=
  ∀ (s u : State) (count : Fin 9) (rest : List Item), s.program = .rdFlags count :: rest → step s = .next u →
    engineRead s.params.intFlagBase count.val { s with program := rest } = .next u ∧
    u.responses = s.responses ∧ u.stored = s.stored ∧ u.decOut = s.decOut ∧ u.encOut = s.encOut ∧ u.program = rest

/-! ### The transport handle and the valid qualifiers, as the environment meets them -/

/-- Derived from spec R42, R132. Where a device acknowledges, Open is one transaction that leaves the transport open at the bus address
and answers ok; the program, the register space, the buffer, the ports, the responses and the stored temperatures stay. That it does so on
a device that is already open as well is the model's choice (log 12), and so is the queue of outcomes (log 9). -/
def Obligations.SuccessfulOpenKeepsTheProgram : Prop :=
  ∀ (s : State) (busAddress : Nat) (rest : List Item), s.program = .openDevice busAddress :: rest →
    s.busOutcome = .succeeds →
    ∃ u, step s = .next u ∧ u.transport = .opened busAddress ∧ u.isOpen = true ∧ u.calls = s.calls ++ [.ok] ∧
      u.busLog = s.busLog ++ [.opening busAddress] ∧ u.program = rest ∧ u.regs = s.regs ∧ u.buf = s.buf ∧
      u.decIn = s.decIn ∧ u.decOut = s.decOut ∧ u.encIn = s.encIn ∧ u.encOut = s.encOut ∧
      u.responses = s.responses ∧ u.stored = s.stored

/-- Derived from spec R132. While no device is open, be it never opened or failed to open, every item that accesses the bus is refused by
name. The refusal is the model's reading (log 14). -/
def Obligations.AccessWithoutAnOpenDeviceIsRefused : Prop :=
  ∀ (s : State) (item : Item) (rest : List Item), s.isOpen = false → s.program = item :: rest →
    ((∃ register count, item = .read register count) ∨ (∃ register, item = .read8 register) ∨
      (∃ register bytes, item = .write register bytes) ∨ (∃ register value, item = .write8 register value) ∨
      (∃ base, item = .decFrame base) ∨ item = .rdThm ∨ (∃ base, item = .rdThr base) ∨
      (∃ count, item = .rdFlags count) ∨ (∃ base, item = .storeThreshold base ∧ s.encOutValid = true)) →
    step s = .refused .transportNotOpen

/-- Derived from spec R19. An output whose valid qualifier is 0 is not used: storing the temperature with out_valid 0, or writing the
threshold with enc_out_valid 0, is refused by name, which is the model's reading (log 21). With the qualifier 1 the temperature on
fval is stored, and the threshold's two bytes are written as MemWrite writes them (R109). -/
def Obligations.OutputsAreUsedOnlyWhereValid : Prop :=
  ∀ (s : State) (rest : List Item) (base : Addr),
    (s.program = .storeValue :: rest →
      (s.outValid = false → step s = .refused .outputNotValid) ∧
      (∀ r, s.decOut = some r → step s = .next { s with program := rest, stored := s.stored ++ [r.fval] })) ∧
    (s.program = .storeThreshold base :: rest →
      (s.encOutValid = false → step s = .refused .outputNotValid) ∧
      (∀ r, s.encOut = some r → step s = memWrite base 2 (r.rHi ++ r.rLo) { s with program := rest }))
end

