-- ==== Sys2Proof/Laws/Binary32.lean ====
section
/-! SUPPORT. The fields of a packed binary32 pattern, and those of a scaled count (spec R58, R91). -/

namespace Sys2Proof.Machine

/-- The pattern `{s, e, f}`. -/
def pack32 (s : Bool) (e f : Nat) : Binary32 := BitVec.ofBool s ++ BitVec.ofNat 8 e ++ BitVec.ofNat 23 f

@[simp] theorem fSign_pack32 (s : Bool) (e f : Nat) : fSign (pack32 s e f) = s := by
  show (BitVec.ofBool s ++ BitVec.ofNat 8 e ++ BitVec.ofNat 23 f).getLsbD 31 = s
  cases s <;> simp only [BitVec.getLsbD_append] <;> rfl

theorem fExp_pack32 (s : Bool) {e : Nat} (f : Nat) (he : e < 256) : fExp (pack32 s e f) = e := by
  have h : (pack32 s e f).extractLsb' 23 8 = BitVec.ofNat 8 e := by
    show BitVec.extractLsb' 23 8 (BitVec.ofBool s ++ BitVec.ofNat 8 e ++ BitVec.ofNat 23 f) = _
    apply BitVec.eq_of_getLsbD_eq
    intro i hi
    have h1 : ¬ (23 + i < 23) := by omega
    have h2 : 23 + i - 23 = i := by omega
    simp only [BitVec.getLsbD_extractLsb', BitVec.getLsbD_append, hi, h1, h2, decide_true, Bool.true_and, if_false,
      if_true]
  rw [fExp, h, BitVec.toNat_ofNat]
  exact Nat.mod_eq_of_lt he

theorem fFrac_pack32 (s : Bool) (e : Nat) {f : Nat} (hf : f < 2 ^ 23) : fFrac (pack32 s e f) = f := by
  have h : (pack32 s e f).extractLsb' 0 23 = BitVec.ofNat 23 f := by
    show BitVec.extractLsb' 0 23 (BitVec.ofBool s ++ BitVec.ofNat 8 e ++ BitVec.ofNat 23 f) = _
    apply BitVec.eq_of_getLsbD_eq
    intro i hi
    simp only [BitVec.getLsbD_extractLsb', BitVec.getLsbD_append, hi, Nat.zero_add, decide_true, Bool.true_and, if_true]
  rw [fFrac, h, BitVec.toNat_ofNat]
  exact Nat.mod_eq_of_lt hf

@[simp] theorem float32Of_zero (k : Nat) : float32Of 0 k = 0 := rfl

/-- A scaled count that is not zero, packed. -/
theorem float32Of_pack (k : Nat) {i : Int} (hi : i ≠ 0) :
    float32Of i k =
      pack32 (decide (i < 0)) (Nat.log2 i.natAbs + 127 - k)
        ((i.natAbs - 2 ^ Nat.log2 i.natAbs) * 2 ^ (23 - Nat.log2 i.natAbs)) := by
  rw [float32Of, if_neg hi, pack32]
  simp only [Nat.shiftLeft_eq]

/-- The leading bit of a count of at most 12 bits. -/
theorem log2_bounds {a : Nat} (h0 : a ≠ 0) (ha : a ≤ 4095) :
    2 ^ Nat.log2 a ≤ a ∧ a < 2 ^ (Nat.log2 a + 1) ∧ Nat.log2 a ≤ 11 := by
  refine ⟨Nat.log2_self_le h0, Nat.lt_log2_self, ?_⟩
  exact Nat.le_of_lt_succ ((Nat.log2_lt h0).2 (by omega))

/-- The fraction of a scaled count fits its 23 bits. -/
theorem float32Of_frac_lt {a : Nat} (h0 : a ≠ 0) (ha : a ≤ 4095) :
    (a - 2 ^ Nat.log2 a) * 2 ^ (23 - Nat.log2 a) < 2 ^ 23 := by
  obtain ⟨h1, h2, h3⟩ := log2_bounds h0 ha
  have h4 : a - 2 ^ Nat.log2 a < 2 ^ Nat.log2 a := by rw [Nat.pow_succ] at h2; omega
  calc (a - 2 ^ Nat.log2 a) * 2 ^ (23 - Nat.log2 a)
      < 2 ^ Nat.log2 a * 2 ^ (23 - Nat.log2 a) := Nat.mul_lt_mul_of_pos_right h4 (Nat.two_pow_pos _)
    _ = 2 ^ 23 := by rw [← Nat.pow_add]; congr 1; omega

/-- The sign, exponent and fraction of a scaled count (spec R91). -/
theorem float32Of_fields {i : Int} {k : Nat} (hi : i ≠ 0) (ha : i.natAbs ≤ 4095) (hk : k ≤ 4) :
    fSign (float32Of i k) = decide (i < 0) ∧ fExp (float32Of i k) = Nat.log2 i.natAbs + 127 - k ∧
      fFrac (float32Of i k) = (i.natAbs - 2 ^ Nat.log2 i.natAbs) * 2 ^ (23 - Nat.log2 i.natAbs) := by
  have h0 : i.natAbs ≠ 0 := by omega
  obtain ⟨-, -, h3⟩ := log2_bounds h0 ha
  rw [float32Of_pack k hi]
  exact ⟨fSign_pack32 _ _ _, fExp_pack32 _ _ (by omega), fFrac_pack32 _ _ (float32Of_frac_lt h0 ha)⟩

end Sys2Proof.Machine
end

