-- ==== Sys2Proof/Laws/Memory.lean ====
section
/-! SUPPORT. The register space: a read after a write, what a write leaves alone, and that every memory operation keeps
the canonical form. -/

namespace Sys2Proof.Machine

/-- Every listed address lies above `lo`. -/
def Memory.above (m : Memory) (lo : Nat) : Prop := ∀ c ∈ m, lo < c.1

@[simp] theorem Memory.peek_nil (a : Nat) : Memory.peek [] a = none := rfl

@[simp] theorem Memory.wf_nil : Memory.wf [] = true := rfl

/-- The canonical form, one cell at a time. -/
theorem Memory.wf_cons (c : Host.Cell) (m : Memory) :
    Memory.wf (c :: m) = true ↔ c.1 < 256 ∧ m.above c.1 ∧ Memory.wf m = true := by
  induction m generalizing c with
  | nil => obtain ⟨a, v⟩ := c; simp [Memory.wf, Memory.above]
  | cons d m ih =>
    obtain ⟨a, v⟩ := c
    obtain ⟨b, w⟩ := d
    rw [Memory.wf, Bool.and_eq_true, decide_eq_true_eq]
    constructor
    · rintro ⟨hab, h⟩
      obtain ⟨hb, habove, _⟩ := (ih (b, w)).1 h
      refine ⟨Nat.lt_trans hab hb, ?_, h⟩
      intro c hc
      rcases List.mem_cons.1 hc with rfl | hc
      · exact hab
      · exact Nat.lt_trans hab (habove c hc)
    · rintro ⟨_, habove, h⟩
      exact ⟨habove (b, w) List.mem_cons_self, h⟩

/-- A register holds at most one byte: below every listed address there is nothing. -/
theorem Memory.peek_of_above {m : Memory} {a : Nat} (h : m.above a) : m.peek a = none := by
  induction m with
  | nil => rfl
  | cons c m ih =>
    obtain ⟨b, v⟩ := c
    have hb : a < b := h (b, v) List.mem_cons_self
    rw [Memory.peek, if_neg (Nat.ne_of_lt hb)]
    exact ih fun c hc => h c (List.mem_cons_of_mem _ hc)

/-- A read after a write: the byte written at its address, the old byte anywhere else. -/
theorem Memory.peek_poke (m : Memory) (a b : Nat) (v : Byte) :
    (m.poke a v).peek b = if b = a then some v else m.peek b := by
  induction m with
  | nil => simp [Memory.poke, Memory.peek]
  | cons c m ih =>
    obtain ⟨d, w⟩ := c
    rw [Memory.poke]
    split
    · simp [Memory.peek]
    · split
      · next hd => subst hd; by_cases h : b = a <;> simp [Memory.peek, h]
      · next hne =>
        by_cases h : b = d
        · subst h
          simp [Memory.peek, Ne.symm hne]
        · simp [Memory.peek, h, ih]

@[simp] theorem Memory.peek_poke_self (m : Memory) (a : Nat) (v : Byte) : (m.poke a v).peek a = some v := by
  simp [Memory.peek_poke]

theorem Memory.peek_poke_ne (m : Memory) {a b : Nat} (v : Byte) (h : b ≠ a) : (m.poke a v).peek b = m.peek b := by
  simp [Memory.peek_poke, h]

theorem Memory.mem_poke {m : Memory} {a : Nat} {v : Byte} {c : Host.Cell} (h : c ∈ m.poke a v) :
    c = (a, v) ∨ c ∈ m := by
  induction m with
  | nil => simpa [Memory.poke] using h
  | cons d m ih =>
    obtain ⟨b, w⟩ := d
    rw [Memory.poke] at h
    split at h
    · simpa using h
    · split at h
      · rcases List.mem_cons.1 h with h | h
        · exact .inl h
        · exact .inr (List.mem_cons_of_mem _ h)
      · rcases List.mem_cons.1 h with h | h
        · exact .inr (h ▸ List.mem_cons_self)
        · exact (ih h).imp id (List.mem_cons_of_mem _)

/-- A write keeps the canonical form. -/
theorem Memory.wf_poke {m : Memory} {a : Nat} (v : Byte) (ha : a < 256) (h : m.wf = true) :
    (m.poke a v).wf = true := by
  induction m with
  | nil => simp [Memory.poke, Memory.wf, ha]
  | cons c m ih =>
    obtain ⟨b, w⟩ := c
    obtain ⟨hb, habove, hm⟩ := (Memory.wf_cons _ _).1 h
    rw [Memory.poke]
    split
    · next hab =>
      refine (Memory.wf_cons _ _).2 ⟨ha, ?_, h⟩
      intro c hc
      rcases List.mem_cons.1 hc with rfl | hc
      · exact hab
      · exact Nat.lt_trans hab (habove c hc)
    · split
      · next hab => subst hab; exact (Memory.wf_cons _ _).2 ⟨ha, habove, hm⟩
      · next hlt hne =>
        refine (Memory.wf_cons _ _).2 ⟨hb, ?_, ih hm⟩
        intro c hc
        rcases Memory.mem_poke hc with rfl | hc
        · exact Nat.lt_of_le_of_ne (Nat.le_of_not_lt hlt) (Ne.symm hne)
        · exact habove c hc

/-- Forgetting registers keeps the canonical form. -/
theorem Memory.wf_forget {m : Memory} (a n : Nat) (h : m.wf = true) : (m.forget a n).wf = true := by
  induction m with
  | nil => rfl
  | cons c m ih =>
    obtain ⟨hc, habove, hm⟩ := (Memory.wf_cons _ _).1 h
    rw [Memory.forget, List.filter_cons]
    split
    · refine (Memory.wf_cons _ _).2 ⟨hc, ?_, ih hm⟩
      intro d hd
      exact habove d (List.mem_filter.1 hd).1
    · exact ih hm

/-- What stands in a register after some were forgotten. -/
theorem Memory.peek_forget (m : Memory) (a n b : Nat) :
    (m.forget a n).peek b = if a ≤ b ∧ b < a + n then none else m.peek b := by
  induction m with
  | nil => simp [Memory.forget]
  | cons c m ih =>
    obtain ⟨d, w⟩ := c
    rw [Memory.forget, List.filter_cons]
    split
    · next hd =>
      rw [Memory.peek, Memory.peek]
      by_cases hbd : b = d
      · subst hbd
        have : ¬ (a ≤ b ∧ b < a + n) := by
          rintro ⟨h1, h2⟩
          simp [h1, h2] at hd
        simp [this]
      · rw [if_neg hbd, if_neg hbd]
        exact ih
    · next hd =>
      have hin : a ≤ d ∧ d < a + n := by simpa using hd
      rw [Memory.peek]
      by_cases hbd : b = d
      · subst hbd
        have := ih
        simp only [hin, and_self, if_true] at this ⊢
        exact this
      · rw [if_neg hbd]
        exact ih

/-- Writing consecutive bytes keeps the canonical form. -/
theorem Memory.wf_pokeAll {m : Memory} {a : Nat} {bytes : List Byte} (ha : a + bytes.length ≤ 256)
    (h : m.wf = true) : (m.pokeAll a bytes).wf = true := by
  induction bytes generalizing m a with
  | nil => exact h
  | cons v rest ih =>
    have hlen : a + (rest.length + 1) ≤ 256 := ha
    exact ih (by omega) (Memory.wf_poke v (by omega) h)

/-- What stands in a register after consecutive bytes were written from `a` on. -/
theorem Memory.peek_pokeAll (m : Memory) (a b : Nat) (bytes : List Byte) :
    (m.pokeAll a bytes).peek b =
      if a ≤ b ∧ b < a + bytes.length then bytes[b - a]? else m.peek b := by
  induction bytes generalizing m a with
  | nil =>
    have h : ¬ (a ≤ b ∧ b < a + ([] : List Byte).length) := by simp
    rw [if_neg h, Memory.pokeAll]
  | cons v rest ih =>
    rw [Memory.pokeAll, ih, Memory.peek_poke, List.length_cons]
    by_cases hb : b = a
    · subst hb
      have h1 : ¬ (b + 1 ≤ b ∧ b < b + 1 + rest.length) := by omega
      have h2 : b ≤ b ∧ b < b + (rest.length + 1) := by omega
      rw [if_neg h1, if_pos h2, if_pos rfl, Nat.sub_self, List.getElem?_cons_zero]
    · rw [if_neg hb]
      by_cases h : a + 1 ≤ b ∧ b < a + 1 + rest.length
      · have h2 : a ≤ b ∧ b < a + (rest.length + 1) := by omega
        have h3 : b - a = (b - (a + 1)) + 1 := by omega
        rw [if_pos h, if_pos h2, h3, List.getElem?_cons_succ]
      · have h2 : ¬ (a ≤ b ∧ b < a + (rest.length + 1)) := by omega
        rw [if_neg h, if_neg h2]

/-- Device updates keep the canonical form. -/
theorem Memory.wf_update {m : Memory} (cells : List (Addr × Byte)) (h : m.wf = true) :
    (m.update cells).wf = true := by
  induction cells generalizing m with
  | nil => exact h
  | cons c rest ih => exact ih (Memory.wf_poke c.2 c.1.isLt h)

end Sys2Proof.Machine
end

