-- ==== Sys2Proof/Laws/State.lean ====
section
/-! SUPPORT. One lemma per field per update of State, so that no proof unfolds a record update. -/

namespace Sys2Proof.Machine

variable (s : State)

/-! A decode request answered -/

@[simp] theorem respondDecode_params (m : Mode) (lo hi : Byte) (r : DecodeResult) : (s.respondDecode m lo hi r).params = s.params := rfl
@[simp] theorem respondDecode_decIn (m : Mode) (lo hi : Byte) (r : DecodeResult) : (s.respondDecode m lo hi r).decIn = { inValid := true, mode := m, bLo := lo, bHi := hi } := rfl
@[simp] theorem respondDecode_decOut (m : Mode) (lo hi : Byte) (r : DecodeResult) : (s.respondDecode m lo hi r).decOut = some r := rfl
@[simp] theorem respondDecode_encIn (m : Mode) (lo hi : Byte) (r : DecodeResult) : (s.respondDecode m lo hi r).encIn = s.encIn := rfl
@[simp] theorem respondDecode_encOut (m : Mode) (lo hi : Byte) (r : DecodeResult) : (s.respondDecode m lo hi r).encOut = s.encOut := rfl
@[simp] theorem respondDecode_program (m : Mode) (lo hi : Byte) (r : DecodeResult) : (s.respondDecode m lo hi r).program = s.program := rfl
@[simp] theorem respondDecode_responses (m : Mode) (lo hi : Byte) (r : DecodeResult) : (s.respondDecode m lo hi r).responses = s.responses ++ [.decode r] := rfl
@[simp] theorem respondDecode_stored (m : Mode) (lo hi : Byte) (r : DecodeResult) : (s.respondDecode m lo hi r).stored = s.stored := rfl
@[simp] theorem respondDecode_regs (m : Mode) (lo hi : Byte) (r : DecodeResult) : (s.respondDecode m lo hi r).regs = s.regs := rfl
@[simp] theorem respondDecode_buf (m : Mode) (lo hi : Byte) (r : DecodeResult) : (s.respondDecode m lo hi r).buf = s.buf := rfl
@[simp] theorem respondDecode_transport (m : Mode) (lo hi : Byte) (r : DecodeResult) : (s.respondDecode m lo hi r).transport = s.transport := rfl
@[simp] theorem respondDecode_calls (m : Mode) (lo hi : Byte) (r : DecodeResult) : (s.respondDecode m lo hi r).calls = s.calls := rfl
@[simp] theorem respondDecode_busLog (m : Mode) (lo hi : Byte) (r : DecodeResult) : (s.respondDecode m lo hi r).busLog = s.busLog := rfl
@[simp] theorem respondDecode_bus (m : Mode) (lo hi : Byte) (r : DecodeResult) : (s.respondDecode m lo hi r).bus = s.bus := rfl
@[simp] theorem respondDecode_device (m : Mode) (lo hi : Byte) (r : DecodeResult) : (s.respondDecode m lo hi r).device = s.device := rfl
@[simp] theorem respondDecode_freeCount (m : Mode) (lo hi : Byte) (r : DecodeResult) : (s.respondDecode m lo hi r).freeCount = s.freeCount := rfl

/-! No decode request -/

@[simp] theorem idleDecode_params (d : DecodeIn) : (s.idleDecode d).params = s.params := rfl
@[simp] theorem idleDecode_decIn (d : DecodeIn) : (s.idleDecode d).decIn = d := rfl
@[simp] theorem idleDecode_decOut (d : DecodeIn) : (s.idleDecode d).decOut = none := rfl
@[simp] theorem idleDecode_encIn (d : DecodeIn) : (s.idleDecode d).encIn = s.encIn := rfl
@[simp] theorem idleDecode_encOut (d : DecodeIn) : (s.idleDecode d).encOut = s.encOut := rfl
@[simp] theorem idleDecode_program (d : DecodeIn) : (s.idleDecode d).program = s.program := rfl
@[simp] theorem idleDecode_responses (d : DecodeIn) : (s.idleDecode d).responses = s.responses := rfl
@[simp] theorem idleDecode_stored (d : DecodeIn) : (s.idleDecode d).stored = s.stored := rfl
@[simp] theorem idleDecode_regs (d : DecodeIn) : (s.idleDecode d).regs = s.regs := rfl
@[simp] theorem idleDecode_buf (d : DecodeIn) : (s.idleDecode d).buf = s.buf := rfl
@[simp] theorem idleDecode_transport (d : DecodeIn) : (s.idleDecode d).transport = s.transport := rfl
@[simp] theorem idleDecode_calls (d : DecodeIn) : (s.idleDecode d).calls = s.calls := rfl
@[simp] theorem idleDecode_busLog (d : DecodeIn) : (s.idleDecode d).busLog = s.busLog := rfl
@[simp] theorem idleDecode_bus (d : DecodeIn) : (s.idleDecode d).bus = s.bus := rfl
@[simp] theorem idleDecode_device (d : DecodeIn) : (s.idleDecode d).device = s.device := rfl
@[simp] theorem idleDecode_freeCount (d : DecodeIn) : (s.idleDecode d).freeCount = s.freeCount := rfl

/-! An encode request answered -/

@[simp] theorem respondEncode_params (t : Binary32) (r : EncodeResult) : (s.respondEncode t r).params = s.params := rfl
@[simp] theorem respondEncode_decIn (t : Binary32) (r : EncodeResult) : (s.respondEncode t r).decIn = s.decIn := rfl
@[simp] theorem respondEncode_decOut (t : Binary32) (r : EncodeResult) : (s.respondEncode t r).decOut = s.decOut := rfl
@[simp] theorem respondEncode_encIn (t : Binary32) (r : EncodeResult) : (s.respondEncode t r).encIn = { encValid := true, t := t } := rfl
@[simp] theorem respondEncode_encOut (t : Binary32) (r : EncodeResult) : (s.respondEncode t r).encOut = some r := rfl
@[simp] theorem respondEncode_program (t : Binary32) (r : EncodeResult) : (s.respondEncode t r).program = s.program := rfl
@[simp] theorem respondEncode_responses (t : Binary32) (r : EncodeResult) : (s.respondEncode t r).responses = s.responses ++ [.encode r] := rfl
@[simp] theorem respondEncode_stored (t : Binary32) (r : EncodeResult) : (s.respondEncode t r).stored = s.stored := rfl
@[simp] theorem respondEncode_regs (t : Binary32) (r : EncodeResult) : (s.respondEncode t r).regs = s.regs := rfl
@[simp] theorem respondEncode_buf (t : Binary32) (r : EncodeResult) : (s.respondEncode t r).buf = s.buf := rfl
@[simp] theorem respondEncode_transport (t : Binary32) (r : EncodeResult) : (s.respondEncode t r).transport = s.transport := rfl
@[simp] theorem respondEncode_calls (t : Binary32) (r : EncodeResult) : (s.respondEncode t r).calls = s.calls := rfl
@[simp] theorem respondEncode_busLog (t : Binary32) (r : EncodeResult) : (s.respondEncode t r).busLog = s.busLog := rfl
@[simp] theorem respondEncode_bus (t : Binary32) (r : EncodeResult) : (s.respondEncode t r).bus = s.bus := rfl
@[simp] theorem respondEncode_device (t : Binary32) (r : EncodeResult) : (s.respondEncode t r).device = s.device := rfl
@[simp] theorem respondEncode_freeCount (t : Binary32) (r : EncodeResult) : (s.respondEncode t r).freeCount = s.freeCount := rfl

/-! No encode request -/

@[simp] theorem idleEncode_params (e : EncodeIn) : (s.idleEncode e).params = s.params := rfl
@[simp] theorem idleEncode_decIn (e : EncodeIn) : (s.idleEncode e).decIn = s.decIn := rfl
@[simp] theorem idleEncode_decOut (e : EncodeIn) : (s.idleEncode e).decOut = s.decOut := rfl
@[simp] theorem idleEncode_encIn (e : EncodeIn) : (s.idleEncode e).encIn = e := rfl
@[simp] theorem idleEncode_encOut (e : EncodeIn) : (s.idleEncode e).encOut = none := rfl
@[simp] theorem idleEncode_program (e : EncodeIn) : (s.idleEncode e).program = s.program := rfl
@[simp] theorem idleEncode_responses (e : EncodeIn) : (s.idleEncode e).responses = s.responses := rfl
@[simp] theorem idleEncode_stored (e : EncodeIn) : (s.idleEncode e).stored = s.stored := rfl
@[simp] theorem idleEncode_regs (e : EncodeIn) : (s.idleEncode e).regs = s.regs := rfl
@[simp] theorem idleEncode_buf (e : EncodeIn) : (s.idleEncode e).buf = s.buf := rfl
@[simp] theorem idleEncode_transport (e : EncodeIn) : (s.idleEncode e).transport = s.transport := rfl
@[simp] theorem idleEncode_calls (e : EncodeIn) : (s.idleEncode e).calls = s.calls := rfl
@[simp] theorem idleEncode_busLog (e : EncodeIn) : (s.idleEncode e).busLog = s.busLog := rfl
@[simp] theorem idleEncode_bus (e : EncodeIn) : (s.idleEncode e).bus = s.bus := rfl
@[simp] theorem idleEncode_device (e : EncodeIn) : (s.idleEncode e).device = s.device := rfl
@[simp] theorem idleEncode_freeCount (e : EncodeIn) : (s.idleEncode e).freeCount = s.freeCount := rfl

/-! A bus transaction issued -/

@[simp] theorem issue_params (a : BusAccess) : (s.issue a).params = s.params := rfl
@[simp] theorem issue_decIn (a : BusAccess) : (s.issue a).decIn = s.decIn := rfl
@[simp] theorem issue_decOut (a : BusAccess) : (s.issue a).decOut = s.decOut := rfl
@[simp] theorem issue_encIn (a : BusAccess) : (s.issue a).encIn = s.encIn := rfl
@[simp] theorem issue_encOut (a : BusAccess) : (s.issue a).encOut = s.encOut := rfl
@[simp] theorem issue_program (a : BusAccess) : (s.issue a).program = s.program := rfl
@[simp] theorem issue_responses (a : BusAccess) : (s.issue a).responses = s.responses := rfl
@[simp] theorem issue_stored (a : BusAccess) : (s.issue a).stored = s.stored := rfl
@[simp] theorem issue_regs (a : BusAccess) : (s.issue a).regs = s.regs := rfl
@[simp] theorem issue_buf (a : BusAccess) : (s.issue a).buf = s.buf := rfl
@[simp] theorem issue_transport (a : BusAccess) : (s.issue a).transport = s.transport := rfl
@[simp] theorem issue_calls (a : BusAccess) : (s.issue a).calls = s.calls := rfl
@[simp] theorem issue_busLog (a : BusAccess) : (s.issue a).busLog = s.busLog ++ [a] := rfl
@[simp] theorem issue_bus (a : BusAccess) : (s.issue a).bus = s.bus.drop 1 := rfl
@[simp] theorem issue_device (a : BusAccess) : (s.issue a).device = s.device := rfl
@[simp] theorem issue_freeCount (a : BusAccess) : (s.issue a).freeCount = s.freeCount := rfl

/-! A call returned -/

@[simp] theorem returned_params (c : CallStatus) : (s.returned c).params = s.params := rfl
@[simp] theorem returned_decIn (c : CallStatus) : (s.returned c).decIn = s.decIn := rfl
@[simp] theorem returned_decOut (c : CallStatus) : (s.returned c).decOut = s.decOut := rfl
@[simp] theorem returned_encIn (c : CallStatus) : (s.returned c).encIn = s.encIn := rfl
@[simp] theorem returned_encOut (c : CallStatus) : (s.returned c).encOut = s.encOut := rfl
@[simp] theorem returned_program (c : CallStatus) : (s.returned c).program = s.program := rfl
@[simp] theorem returned_responses (c : CallStatus) : (s.returned c).responses = s.responses := rfl
@[simp] theorem returned_stored (c : CallStatus) : (s.returned c).stored = s.stored := rfl
@[simp] theorem returned_regs (c : CallStatus) : (s.returned c).regs = s.regs := rfl
@[simp] theorem returned_buf (c : CallStatus) : (s.returned c).buf = s.buf := rfl
@[simp] theorem returned_transport (c : CallStatus) : (s.returned c).transport = s.transport := rfl
@[simp] theorem returned_calls (c : CallStatus) : (s.returned c).calls = s.calls ++ [c] := rfl
@[simp] theorem returned_busLog (c : CallStatus) : (s.returned c).busLog = s.busLog := rfl
@[simp] theorem returned_bus (c : CallStatus) : (s.returned c).bus = s.bus := rfl
@[simp] theorem returned_device (c : CallStatus) : (s.returned c).device = s.device := rfl
@[simp] theorem returned_freeCount (c : CallStatus) : (s.returned c).freeCount = s.freeCount := rfl

/-! The device acts -/

@[simp] theorem deviceActs_params : s.deviceActs.params = s.params := rfl
@[simp] theorem deviceActs_decIn : s.deviceActs.decIn = s.decIn := rfl
@[simp] theorem deviceActs_decOut : s.deviceActs.decOut = s.decOut := rfl
@[simp] theorem deviceActs_encIn : s.deviceActs.encIn = s.encIn := rfl
@[simp] theorem deviceActs_encOut : s.deviceActs.encOut = s.encOut := rfl
@[simp] theorem deviceActs_program : s.deviceActs.program = s.program := rfl
@[simp] theorem deviceActs_responses : s.deviceActs.responses = s.responses := rfl
@[simp] theorem deviceActs_stored : s.deviceActs.stored = s.stored := rfl
@[simp] theorem deviceActs_regs : s.deviceActs.regs = s.regs.update (s.device.headD []) := rfl
@[simp] theorem deviceActs_buf : s.deviceActs.buf = s.buf := rfl
@[simp] theorem deviceActs_transport : s.deviceActs.transport = s.transport := rfl
@[simp] theorem deviceActs_calls : s.deviceActs.calls = s.calls := rfl
@[simp] theorem deviceActs_busLog : s.deviceActs.busLog = s.busLog := rfl
@[simp] theorem deviceActs_bus : s.deviceActs.bus = s.bus := rfl
@[simp] theorem deviceActs_device : s.deviceActs.device = s.device.drop 1 := rfl
@[simp] theorem deviceActs_freeCount : s.deviceActs.freeCount = s.freeCount := rfl

end Sys2Proof.Machine
end

