-- ==== Sys2Proof/Laws/Bus.lean ====
section
/-! SUPPORT. What the environment's accesses can do, said once per operation: which fields a bus transaction changes, how the
bus log grows, how long what it delivers is, and that the register space keeps its canonical form. -/

namespace Sys2Proof.Machine

/-- What a read leaves alone, and how it may change the rest: the log grows by reads that are inside the space and no
longer than `limit`; the register space keeps its canonical form. -/
structure ReadFrame (limit : Nat) (s u : State) : Prop where
  params    : u.params = s.params
  decIn     : u.decIn = s.decIn
  decOut    : u.decOut = s.decOut
  encIn     : u.encIn = s.encIn
  encOut    : u.encOut = s.encOut
  program   : u.program = s.program
  responses : u.responses = s.responses
  stored    : u.stored = s.stored
  buf       : u.buf = s.buf
  transport : u.transport = s.transport
  calls     : u.calls = s.calls
  regs      : s.regs.wf = true → u.regs.wf = true
  busLog    : ∃ l, u.busLog = s.busLog ++ l ∧ ∀ x ∈ l, ∃ a n, x = .read a n ∧ n ≤ limit ∧ a + n ≤ 256

theorem ReadFrame.refl (limit : Nat) (s : State) : ReadFrame limit s s where
  params := rfl
  decIn := rfl
  decOut := rfl
  encIn := rfl
  encOut := rfl
  program := rfl
  responses := rfl
  stored := rfl
  buf := rfl
  transport := rfl
  calls := rfl
  regs := id
  busLog := ⟨[], by simp⟩

theorem ReadFrame.trans {limit : Nat} {s u v : State} (h : ReadFrame limit s u) (k : ReadFrame limit u v) :
    ReadFrame limit s v where
  params := k.params.trans h.params
  decIn := k.decIn.trans h.decIn
  decOut := k.decOut.trans h.decOut
  encIn := k.encIn.trans h.encIn
  encOut := k.encOut.trans h.encOut
  program := k.program.trans h.program
  responses := k.responses.trans h.responses
  stored := k.stored.trans h.stored
  buf := k.buf.trans h.buf
  transport := k.transport.trans h.transport
  calls := k.calls.trans h.calls
  regs := k.regs ∘ h.regs
  busLog := by
    obtain ⟨l, hl, hall⟩ := h.busLog
    obtain ⟨r, hr, rall⟩ := k.busLog
    refine ⟨l ++ r, by rw [hr, hl, List.append_assoc], ?_⟩
    intro x hx
    exact (List.mem_append.1 hx).elim (hall x) (rall x)

/-- Reading a byte changes only the register space (through the device), the device queue and the free-value counter. -/
theorem readByte_frame (limit a : Nat) (s : State) : ReadFrame limit s (readByte a s).2 := by
  have hd : ReadFrame limit s s.deviceActs :=
    { ReadFrame.refl limit s with regs := fun h => Memory.wf_update _ h }
  rw [readByte]
  split
  · exact hd
  · exact { hd with }

/-- A byte of a register of which something is known. -/
theorem readByte_known {a : Nat} {v : Byte} {s : State} (h : s.deviceActs.regs.peek a = some v) :
    readByte a s = (v, s.deviceActs) := by
  simp only [readByte, h]

/-- A byte of a register of which nothing is known: the next free value. -/
theorem readByte_unknown {a : Nat} {s : State} (h : s.deviceActs.regs.peek a = none) :
    readByte a s =
      (Config.freeByte s.freeCount, { s.deviceActs with freeCount := s.freeCount + 1 }) := by
  simp only [readByte, h]
  rfl

theorem readBytes_frame (limit n a : Nat) (s : State) : ReadFrame limit s (readBytes n a s).2 := by
  induction n generalizing a s with
  | zero => exact ReadFrame.refl limit s
  | succ n ih => exact (readByte_frame limit a s).trans (ih (a + 1) _)

/-- Reading a byte lets the device make its next update and changes the registers in no other way. -/
theorem readByte_device (a : Nat) (s : State) :
    (readByte a s).2.regs = s.regs.update (s.device.headD []) ∧ (readByte a s).2.device = s.device.drop 1 ∧
      (readByte a s).2.bus = s.bus ∧ (readByte a s).2.busLog = s.busLog := by
  rw [readByte]
  split <;> exact ⟨rfl, rfl, rfl, rfl⟩

/-- Reading `n` bytes lets the device make its next `n` updates, and takes no further outcome of the transport. -/
theorem readBytes_device (n a : Nat) (s : State) :
    (readBytes n a s).2.regs = (s.device.take n).foldl Memory.update s.regs ∧
      (readBytes n a s).2.device = s.device.drop n ∧
      (readBytes n a s).2.bus = s.bus ∧ (readBytes n a s).2.busLog = s.busLog := by
  induction n generalizing a s with
  | zero => exact ⟨rfl, rfl, rfl, rfl⟩
  | succ n ih =>
    obtain ⟨h1, h2, h3, h4⟩ := readByte_device a s
    obtain ⟨k1, k2, k3, k4⟩ := ih (a + 1) (readByte a s).2
    refine ⟨k1.trans ?_, k2.trans ?_, k3.trans h3, k4.trans h4⟩
    · rw [h1, h2]
      cases s.device with
      | nil => simp [Memory.update]
      | cons c rest => simp
    · rw [h2, List.drop_drop, Nat.add_comm 1 n]

@[simp] theorem readBytes_length (n a : Nat) (s : State) : (readBytes n a s).1.length = n := by
  induction n generalizing a s with
  | zero => rfl
  | succ n ih => simp [readBytes, ih]

theorem busRead_succeeds {a n : Nat} {s : State} (h : s.busOutcome = .succeeds) :
    busRead a n s =
      (some (readBytes n a (s.issue (.read a n))).1, (readBytes n a (s.issue (.read a n))).2) := by
  simp only [busRead, h]

theorem busRead_fails {a n : Nat} {s : State} (h : s.busOutcome = .fails) :
    busRead a n s = (none, s.issue (.read a n)) := by
  simp only [busRead, h]

theorem busRead_frame {limit a n : Nat} (s : State) (hn : n ≤ limit) (ha : a + n ≤ 256) :
    ReadFrame limit s (busRead a n s).2 := by
  have hi : ReadFrame limit s (s.issue (.read a n)) :=
    { ReadFrame.refl limit s with busLog := ⟨[.read a n], rfl, fun x hx => ⟨a, n, List.mem_singleton.1 hx, hn, ha⟩⟩ }
  rw [busRead]
  split
  · exact hi.trans (readBytes_frame limit n a _)
  · exact hi

theorem busRead_length {a n : Nat} {s : State} {bytes : List Byte} (h : (busRead a n s).1 = some bytes) :
    bytes.length = n := by
  rw [busRead] at h
  split at h
  · simp only [Option.some.injEq] at h
    rw [← h, readBytes_length]
  · simp at h

theorem chunkLoop_frame {limit fuel register count transferred : Nat} {got : List Byte} (s : State)
    (hc : s.params.chunkSize ≤ limit) (hle : transferred ≤ count) (ha : register + count ≤ 256) :
    ReadFrame limit s (chunkLoop fuel register count transferred got s).2 := by
  induction fuel generalizing transferred got s with
  | zero => exact ReadFrame.refl limit s
  | succ fuel ih =>
    rw [chunkLoop]
    split
    · exact ReadFrame.refl limit s
    · dsimp only
      have hf := busRead_frame (limit := limit) (a := register + transferred)
        (n := min s.params.chunkSize (count - transferred)) s (by omega) (by omega)
      split
      · next hb => rw [hb] at hf; exact hf
      · next bytes s' hb =>
        rw [hb] at hf
        exact hf.trans (ih s' (by rw [hf.params]; exact hc) (by omega))

/-- A read that succeeds delivers exactly the bytes asked for, however it was chunked. -/
theorem chunkLoop_length {fuel register count transferred : Nat} {got bytes : List Byte} {s : State}
    (hc : 0 < s.params.chunkSize) (hg : got.length = transferred) (hle : transferred ≤ count)
    (hfuel : count ≤ transferred + fuel)
    (h : (chunkLoop fuel register count transferred got s).1 = some bytes) : bytes.length = count := by
  induction fuel generalizing transferred got s with
  | zero =>
    simp only [chunkLoop, Option.some.injEq] at h
    rw [← h, hg]
    omega
  | succ fuel ih =>
    rw [chunkLoop] at h
    split at h
    · next heq =>
      simp only [Option.some.injEq] at h
      rw [← h, hg, heq]
    · next hne =>
      dsimp only at h
      split at h
      · simp at h
      · next b s' hb =>
        have hl := busRead_length (a := register + transferred) (by rw [hb])
        have hp : s'.params = s.params := by
          have := (readBytes_frame 0 (min s.params.chunkSize (count - transferred)) (register + transferred)
            (s.issue (.read (register + transferred) (min s.params.chunkSize (count - transferred))))).params
          rw [busRead] at hb
          split at hb
          · obtain ⟨_, rfl⟩ := Prod.mk.inj hb
            exact this
          · simp at hb
        refine ih (by rw [hp]; exact hc) ?_ (by omega) (by omega) h
        rw [List.length_append, hg, hl]

theorem engineBytes_frame {register count : Nat} (s : State) (ha : register + count ≤ 256) :
    ReadFrame s.params.chunkSize s (engineBytes register count s).2 := by
  rw [engineBytes]
  split
  · next h => exact busRead_frame s h ha
  · exact chunkLoop_frame s (Nat.le_refl _) (Nat.zero_le _) ha

theorem engineBytes_length {register count : Nat} {s : State} {bytes : List Byte}
    (hc : 0 < s.params.chunkSize) (h : (engineBytes register count s).1 = some bytes) : bytes.length = count := by
  rw [engineBytes] at h
  split at h
  · exact busRead_length h
  · exact chunkLoop_length (transferred := 0) hc rfl (Nat.zero_le _) (by omega) h

/-- Everything a read that answers can do: fill the buffer as a whole, or leave none and signal the failure. -/
theorem engineRead_cases {register : Addr} {count : Nat} {s u : State} (h : engineRead register count s = .next u) :
    s.isOpen = true ∧ 0 < s.params.chunkSize ∧ register.toNat + count ≤ 256 ∧
      ∃ v, ReadFrame s.params.chunkSize s v ∧ (engineBytes register.toNat count s).2 = v ∧
      ((∃ bytes, (engineBytes register.toNat count s).1 = some bytes ∧ bytes.length = count ∧
          u = { v with buf := some bytes }.returned .ok) ∨
        ((engineBytes register.toNat count s).1 = none ∧ u = { v with buf := none }.returned .transactionFailure)) := by
  rw [engineRead] at h
  split at h
  · simp at h
  split at h
  · simp at h
  split at h
  · simp at h
  next ho hc ha =>
  have hopen : s.isOpen = true := by simpa using ho
  have hchunk : 0 < s.params.chunkSize := Nat.pos_of_ne_zero hc
  have hin : register.toNat + count ≤ 256 := Nat.le_of_not_lt ha
  have hf := engineBytes_frame s hin
  refine ⟨hopen, hchunk, hin, _, hf, rfl, ?_⟩
  split at h
  · next bytes s' hb =>
    refine .inl ⟨bytes, by rw [hb], engineBytes_length hchunk (by rw [hb]), ?_⟩
    simpa [hb] using h.symm
  · next s' hb =>
    refine .inr ⟨by rw [hb], ?_⟩
    simpa [hb] using h.symm

/-- Everything a write that answers can do. -/
theorem engineWrite_cases {register : Addr} {bytes : List Byte} {s u : State}
    (h : engineWrite register bytes s = .next u) :
    s.isOpen = true ∧ register.toNat + bytes.length ≤ 256 ∧
      ((s.busOutcome = .succeeds ∧
          u = { s.issue (.write register.toNat bytes) with regs := s.regs.pokeAll register.toNat bytes }.returned .ok) ∨
        (s.busOutcome = .fails ∧
          u = { s.issue (.write register.toNat bytes) with
                regs := s.regs.forget register.toNat bytes.length }.returned .transactionFailure)) := by
  rw [engineWrite] at h
  split at h
  · simp at h
  split at h
  · simp at h
  next ho ha =>
  refine ⟨by simpa using ho, Nat.le_of_not_lt ha, ?_⟩
  dsimp only at h
  split at h
  · next hb => exact .inl ⟨hb, by simpa using h.symm⟩
  · next hb => exact .inr ⟨hb, by simpa using h.symm⟩

/-- Everything an `Open` can do. -/
theorem openDevice_cases (busAddress : Nat) (s : State) :
    (s.busOutcome = .succeeds ∧ openDevice busAddress s =
        .next ({ s.issue (.opening busAddress) with transport := .opened busAddress }.returned .ok)) ∨
      (s.busOutcome = .fails ∧ openDevice busAddress s =
        .next ({ s.issue (.opening busAddress) with transport := .failed, program := [] }.returned
          .initializationFailure)) := by
  rw [openDevice]
  dsimp only
  split
  · next h => exact .inl ⟨h, rfl⟩
  · next h => exact .inr ⟨h, rfl⟩

end Sys2Proof.Machine
end

