-- ==== Sys2Proof/Laws/Exec.lean ====
section
/-! SUPPORT. What a request of the block can do, said once: the answer of each defined request, the refusals, and what none of
them touches. -/

namespace Sys2Proof.Machine

variable (s : State)

@[simp] theorem exec_decPix (lo hi : Byte) :
    exec (.decPix lo hi) s = .next (s.respondDecode 0b00 lo hi (decodeResult lo hi twosComp12 pixLsbExp)) := rfl

@[simp] theorem exec_reserved01 (lo hi : Byte) : exec (.reserved01 lo hi) s = .refused .reservedMode := rfl

@[simp] theorem exec_decThr (lo hi : Byte) :
    exec (.decThr lo hi) s = .next (s.respondDecode 0b10 lo hi (decodeResult lo hi signMag12 thrLsbExp)) := rfl

@[simp] theorem exec_decThm (lo hi : Byte) :
    exec (.decThm lo hi) s = .next (s.respondDecode 0b11 lo hi (decodeResult lo hi signMag12 thmLsbExp)) := rfl

theorem exec_encThr_nan {t : Binary32} (h : isNaN t = true) : exec (.encThr t) s = .refused .nanThreshold := by
  simp [exec, execEncThr, h]

theorem exec_encThr_not_nan {t : Binary32} (h : isNaN t = false) :
    exec (.encThr t) s = .next (s.respondEncode t (encodeResult s.params t)) := by
  simp [exec, execEncThr, h]

/-- Everything a request that answers can do: drive its own path, and add one response. -/
theorem exec_cases {i : Instr} {s u : State} (h : exec i s = .next u) :
    (∃ m lo hi reading k, m ≠ 0b01#2 ∧ (∀ f, reading f = countOf m f) ∧ k = lsbExpOf m ∧
      u = s.respondDecode m lo hi (decodeResult lo hi reading k)) ∨
    (∃ t, isNaN t = false ∧ i = .encThr t ∧ u = s.respondEncode t (encodeResult s.params t)) := by
  cases i with
  | decPix lo hi =>
    refine .inl ⟨0b00, lo, hi, twosComp12, pixLsbExp, by decide, fun f => rfl, rfl, ?_⟩
    simpa using h.symm
  | reserved01 lo hi => simp at h
  | decThr lo hi =>
    refine .inl ⟨0b10, lo, hi, signMag12, thrLsbExp, by decide, fun f => rfl, rfl, ?_⟩
    simpa using h.symm
  | decThm lo hi =>
    refine .inl ⟨0b11, lo, hi, signMag12, thmLsbExp, by decide, fun f => rfl, rfl, ?_⟩
    simpa using h.symm
  | encThr t =>
    cases hn : isNaN t with
    | true => simp [exec_encThr_nan s hn] at h
    | false => exact .inr ⟨t, hn, rfl, by simpa [exec_encThr_not_nan s hn] using h.symm⟩

/-- The decode path's outputs are those of its input ports. -/
theorem decodePath_valid (m : Mode) (lo hi : Byte) (hm : m ≠ 0b01#2) :
    decodePath { inValid := true, mode := m, bLo := lo, bHi := hi } =
      some (decodeResult lo hi (countOf m) (lsbExpOf m)) := by
  simp [decodePath, decodeValid, decodeResult, hm]

@[simp] theorem decodePath_invalid (m : Mode) (lo hi : Byte) :
    decodePath { inValid := false, mode := m, bLo := lo, bHi := hi } = none := by
  simp [decodePath, decodeValid]

theorem encodePath_valid (p : Params) {t : Binary32} (h : isNaN t = false) :
    encodePath p { encValid := true, t := t } = some (encodeResult p t) := by
  simp [encodePath, encodeValid, h]

@[simp] theorem encodePath_invalid (p : Params) (t : Binary32) :
    encodePath p { encValid := false, t := t } = none := by
  simp [encodePath, encodeValid]

end Sys2Proof.Machine
end

