-- ==== Sys2Proof/Laws/Step.lean ====
section
/-! SUPPORT. The request stream and the step: what presenting and each item can do. -/

namespace Sys2Proof.Machine

variable (s : State)

/-- A sequence of two answers a next state exactly where both do. -/
theorem andThen_eq_next {o : Host.Outcome State Fault Refusal} {f : State → Host.Outcome State Fault Refusal}
    {u : State} : andThen o f = .next u ↔ ∃ v, o = .next v ∧ f v = .next u := by
  cases o <;> simp [andThen]

theorem step_nil {s : State} (h : s.program = []) : step s = .next s := by
  simp [step, h]

theorem step_cons {s : State} {item : Item} {rest : List Item} (h : s.program = item :: rest) :
    step s = runItem item { s with program := rest } := by
  simp [step, h]

@[simp] theorem presentDecode_invalid (d : DecodeIn) (h : d.inValid = false) :
    presentDecode d s = .next (s.idleDecode d) := by
  simp [presentDecode, h]

@[simp] theorem presentEncode_invalid (e : EncodeIn) (h : e.encValid = false) :
    presentEncode e s = .next (s.idleEncode e) := by
  simp [presentEncode, h]

@[simp] theorem dreqMode_dreqOf (m : Mode) (lo hi : Byte) : dreqMode (dreqOf m lo hi) = m := by
  show BitVec.extractLsb' 16 2 (m ++ hi ++ lo) = m
  apply BitVec.eq_of_getLsbD_eq
  intro i hi'
  have h1 : ¬ (16 + i < 8) := by omega
  have h2 : ¬ (16 + i - 8 < 8) := by omega
  have h3 : 16 + i - 8 - 8 = i := by omega
  simp only [BitVec.getLsbD_extractLsb', BitVec.getLsbD_append, hi', h1, h2, h3, decide_true, Bool.true_and, if_false]

@[simp] theorem dreqHi_dreqOf (m : Mode) (lo hi : Byte) : dreqHi (dreqOf m lo hi) = hi := by
  show BitVec.extractLsb' 8 8 (m ++ hi ++ lo) = hi
  apply BitVec.eq_of_getLsbD_eq
  intro i hi'
  have h1 : ¬ (8 + i < 8) := by omega
  have h2 : 8 + i - 8 = i := by omega
  simp only [BitVec.getLsbD_extractLsb', BitVec.getLsbD_append, hi', h1, h2, decide_true, Bool.true_and, if_false, if_true]

@[simp] theorem dreqLo_dreqOf (m : Mode) (lo hi : Byte) : dreqLo (dreqOf m lo hi) = lo := by
  show BitVec.extractLsb' 0 8 (m ++ hi ++ lo) = lo
  apply BitVec.eq_of_getLsbD_eq
  intro i hi'
  simp only [BitVec.getLsbD_extractLsb', BitVec.getLsbD_append, hi', Nat.zero_add, decide_true, Bool.true_and, if_true]

/-- The only two-bit codes. -/
theorem mode_cases (m : Mode) : m = 0b00#2 ∨ m = 0b01#2 ∨ m = 0b10#2 ∨ m = 0b11#2 := by
  revert m
  decide

/-- The verdict on a decode request word, by its mode. -/
theorem decode_dreqOf (m : Mode) (lo hi : Byte) :
    decode (.dreq (dreqOf m lo hi)) =
      .ok (if m = 0b00#2 then .decPix lo hi else if m = 0b01#2 then .reserved01 lo hi
        else if m = 0b10#2 then .decThr lo hi else .decThm lo hi) := by
  rw [decode, dreqMode_dreqOf, dreqHi_dreqOf, dreqLo_dreqOf]
  rcases mode_cases m with rfl | rfl | rfl | rfl <;> rfl

theorem presentEncode_nan (t : Binary32) (h : isNaN t = true) :
    presentEncode { encValid := true, t := t } s = .refused .nanThreshold := by
  simp [presentEncode, presentWord, decode, h]

/-- A decode request of a mode that has a meaning is answered with the path's function of it. -/
theorem presentDecode_valid (s : State) (m : Mode) (lo hi : Byte) (hm : m ≠ 0b01#2) :
    presentDecode { inValid := true, mode := m, bLo := lo, bHi := hi } s =
      .next (s.respondDecode m lo hi (decodeResult lo hi (countOf m) (lsbExpOf m))) := by
  rw [presentDecode, if_pos rfl, presentWord, DecodeIn.request, decode_dreqOf]
  rcases mode_cases m with rfl | rfl | rfl | rfl
  · simp; rfl
  · exact absurd rfl hm
  · simp; rfl
  · simp; rfl

/-- An encode request of a threshold that is no NaN is answered with the path's function of it. -/
theorem presentEncode_valid (s : State) {t : Binary32} (h : isNaN t = false) :
    presentEncode { encValid := true, t := t } s = .next (s.respondEncode t (encodeResult s.params t)) := by
  simp [presentEncode, presentWord, decode, h, exec_encThr_not_nan s h]

/-- One step of a run. -/
theorem core_run_succ {k : Nat} {s u : State} (h : step s = .next u) :
    Sys2Proof.core.run (k + 1) s = Sys2Proof.core.run k u := by
  have hc : Sys2Proof.core.step s = .next u := h
  exact (Host.Core.run.eq_2 Sys2Proof.core s k).trans (by rw [hc])

/-- Everything presenting the decode path can do: nothing but its own ports and one response of the path's
function. -/
theorem presentDecode_cases {d : DecodeIn} {s u : State} (h : presentDecode d s = .next u) :
    (d.inValid = false ∧ u = s.idleDecode d) ∨
    (d.inValid = true ∧ d.mode ≠ 0b01#2 ∧
      u = s.respondDecode d.mode d.bLo d.bHi (decodeResult d.bLo d.bHi (countOf d.mode) (lsbExpOf d.mode))) := by
  cases hv : d.inValid with
  | false => exact .inl ⟨rfl, by simpa [hv] using h.symm⟩
  | true =>
    refine .inr ⟨rfl, ?_⟩
    rw [presentDecode, if_pos hv, presentWord, DecodeIn.request, decode_dreqOf] at h
    rcases mode_cases d.mode with hm | hm | hm | hm <;> simp [hm] at h
    all_goals
      refine ⟨by simp [hm], ?_⟩
      rw [← h, hm]
      rfl

/-- Everything presenting the encode path can do. -/
theorem presentEncode_cases {e : EncodeIn} {s u : State} (h : presentEncode e s = .next u) :
    (e.encValid = false ∧ u = s.idleEncode e) ∨
    (e.encValid = true ∧ isNaN e.t = false ∧ u = s.respondEncode e.t (encodeResult s.params e.t)) := by
  cases hv : e.encValid with
  | false => exact .inl ⟨rfl, by simpa [hv] using h.symm⟩
  | true =>
    refine .inr ⟨rfl, ?_⟩
    rw [presentEncode, if_pos hv, presentWord, decode] at h
    cases hn : isNaN e.t with
    | true => simp [hn] at h
    | false => exact ⟨rfl, by simpa [hn, exec_encThr_not_nan s hn] using h.symm⟩

/-- Everything a read followed by items can do: the read, and the items put before the rest of the program exactly
where it filled the buffer. -/
theorem readThen_cases {base : Addr} {count : Nat} {items : List Item} {s u : State}
    (h : readThen base count items s = .next u) :
    ∃ v, engineRead base count s = .next v ∧
      ((v.buf.isSome = true ∧ u = { v with program := items ++ v.program }) ∨ (v.buf.isSome = false ∧ u = v)) := by
  obtain ⟨v, hv, h⟩ := andThen_eq_next.1 h
  refine ⟨v, hv, ?_⟩
  split at h
  · next hb => exact .inl ⟨hb, by simpa using h.symm⟩
  · next hb => exact .inr ⟨by simpa using hb, by simpa using h.symm⟩

end Sys2Proof.Machine
end

