-- ==== Sys2Proof/Laws/PerInstr.lean ====
section
/-! SUPPORT. The statements made per request. The one family, Encoding, says on which path and under which mode the request word of
a request lies (spec R57). -/

namespace Sys2Proof.Laws.Encoding

/-- The request word of a request lies on its own path, and on the decode path under its own mode. -/
def Statement (i : Instr) : Prop :=
  match modeOf i with
  | some m => ∃ w, encode i = .dreq w ∧ dreqMode w = m
  | none => ∃ t, encode i = .ereq t

theorem decPix (bLo bHi : Byte) : Statement (.decPix bLo bHi) :=
  ⟨_, rfl, Machine.dreqMode_dreqOf 0b00 bLo bHi⟩

theorem reserved01 (bLo bHi : Byte) : Statement (.reserved01 bLo bHi) :=
  ⟨_, rfl, Machine.dreqMode_dreqOf 0b01 bLo bHi⟩

theorem decThr (bLo bHi : Byte) : Statement (.decThr bLo bHi) :=
  ⟨_, rfl, Machine.dreqMode_dreqOf 0b10 bLo bHi⟩

theorem decThm (bLo bHi : Byte) : Statement (.decThm bLo bHi) :=
  ⟨_, rfl, Machine.dreqMode_dreqOf 0b11 bLo bHi⟩

theorem encThr (t : Binary32) : Statement (.encThr t) :=
  ⟨t, rfl⟩

end Sys2Proof.Laws.Encoding
end

