-- ==== Sys2Proof/Tests/Slice0.lean ====
section
/-! SUPPORT. Small tests on the model, their expected results from the tables of spec/95 or counted by hand from a rule, and for each
obligation with hypotheses a named witness that meets them. -/

namespace Sys2Proof.Tests

open Sys2Proof.Machine Sys2Proof.Spec

/-- The next state, where there is one. -/
def after (o : Host.Outcome State Fault Refusal) : Option State :=
  match o with
  | .next s => some s
  | .fault _ => none
  | .refused _ => none

/-- The refusal, where there is one. -/
def refusal (o : Host.Outcome State Fault Refusal) : Option Refusal :=
  match o with
  | .next _ => none
  | .fault _ => none
  | .refused r => some r

/-- The output ports after a decode request. -/
def decoded (i : Instr) : Option (Word × Field × Word × Binary32) :=
  ((after (exec i State.reset)).bind State.decOut).map fun r => (r.word, r.field, r.ival, r.fval)

/-- The output ports after an encode request, under two parameters of the encoder. -/
def encoded (r : EncRound) (l : EncNegLayout) (t : Binary32) : Option (Word × Byte × Byte) :=
  ((after (exec (.encThr t) (State.resetWith { Params.presumed with encRound := r, encNegLayout := l }))).bind
    State.encOut).map fun e => (e.q, e.rLo, e.rHi)

/-- An open device with some registers known, and a program. -/
def opened (regs : Memory) (program : List Item) : State :=
  { State.reset with transport := .opened 0x69, regs := regs, program := program }

/-- The same with a chunk size. -/
def chunked (n : Nat) (s : State) : State :=
  { s with params := { s.params with chunkSize := n } }

/-! ### Well-formedness: the one check, and the terms it refuses and admits -/

theorem test_wellFormed_refuses_quiet_nan : WellFormed (.encThr 0x7FC00000) = false := by decide
theorem test_wellFormed_refuses_signalling_nan : WellFormed (.encThr 0xFF800001) = false := by decide
theorem test_wellFormed_admits_infinity : WellFormed (.encThr 0xFF800000) = true := by decide

/-! ### Decoding: words written out from R55 to R57 (the mode in 17:16, b_hi in 15:8, b_lo in 7:0) -/

theorem test_decode_decPix : decodeTableWord 24 0b00_00001111_10011100 = some (.decPix 0x9C 0x0F) := by decide
theorem test_decode_reserved01 : decodeTableWord 24 0b01_00000000_01100100 = some (.reserved01 0x64 0x00) := by decide
theorem test_decode_decThr : decodeTableWord 24 0b10_11111001_10001111 = some (.decThr 0x8F 0xF9) := by decide
theorem test_decode_decThm : decodeTableWord 24 0b11_10101011_11001101 = some (.decThm 0xCD 0xAB) := by decide
theorem test_decode_encThr :
    decodeTableWord 32 0b1_10000010_01000000000000000000000 = some (.encThr 0xC1200000) := by decide
theorem test_decode_rejects_nan : decodeBits 32 0x7F800001 = .error (.rejectedWord .nanThreshold) := by decide
theorem test_decode_rejects_length : decodeBits 16 0 = .error .noRequestOfThisLength := by decide
theorem test_decode_rejects_high_bits : decodeBits 24 0x40064 = .error .bitsAboveTheWord := by decide
theorem test_encode_decThm : encode (.decThm 0x64 0x80) = .dreq 0x38064 := by decide
theorem test_step_runs_fetch_word :
    ((after (step (State.reset.withFetchWord 24 0x00064))).bind State.decOut).map DecodeResult.fval =
      some 0x41C80000 := by decide
theorem test_written_form :
    written (.decThm 0x64 0x8F) =
      some ['D', 'E', 'C', '_', 'T', 'H', 'M', ' ', '0', 'x', '6', '4', ',', ' ', '0', 'x', '8', 'F'] := by decide

/-! ### The requests -/

/-- V3 row 11. -/
theorem test_decPix_most_negative : decoded (.decPix 0x00 0xF8) = some (0xF800, 0x800, 0xF800, 0xC4000000) := by decide
/-- V3 row 17. -/
theorem test_decPix_upper_bits : decoded (.decPix 0xCD 0xAB) = some (0xABCD, 0xBCD, 0xFBCD, 0xC3866000) := by decide
/-- V6 row 3. -/
theorem test_reserved01 : refusal (exec (.reserved01 0x64 0x00) State.reset) = some .reservedMode := by decide
/-- V2b row 18. -/
theorem test_decThr_negative : decoded (.decThr 0x8F 0xF9) = some (0xF98F, 0x98F, 0xFE71, 0xC2C78000) := by decide
/-- V2b row 5. -/
theorem test_decThr_negative_zero : decoded (.decThr 0x00 0x08) = some (0x0800, 0x800, 0, 0) := by decide
/-- S7 row 1. -/
theorem test_decThm_source_bytes : decoded (.decThm 0x64 0x80) = some (0x8064, 0x064, 100, 0x40C80000) := by decide
/-- V2a row 14. -/
theorem test_decThm_negative : decoded (.decThm 0xCD 0xAB) = some (0xABCD, 0xBCD, 0xFC33, 0xC2734000) := by decide
/-- V5 row 20, under the parameters its last column names. -/
theorem test_encThr_parameters :
    encoded .towardZero .smOr 0xC2C7CCCD = some (0xFE71, 0x8F, 0x09) ∧
    encoded .floor .smOr 0xC2C7CCCD = some (0xFE70, 0x90, 0x09) ∧
    encoded .nearestEven .magnitudeOnly 0xC2C7CCCD = some (0xFE70, 0x90, 0x01) ∧
    encoded .towardZero .twosComplementLow12 0xC2C7CCCD = some (0xFE71, 0x71, 0x0E) := by decide
/-- V5 rows 31 and 37. -/
theorem test_encThr_saturates_and_subnormal :
    encoded .towardZero .smOr 0xC4FA0000 = some (0xF001, 0xFF, 0x0F) ∧
    encoded .towardZero .smOr 0x80000001 = some (0, 0, 0) ∧
    (encoded .floor .smOr 0x80000001).map Prod.fst = some 0xFFFF := by decide
/-- The ties of nearest_even (R96), counted by hand: 0.125 and 0.375 give x = 0.5 and 1.5. -/
theorem test_nearestEven_ties :
    (encoded .nearestEven .smOr 0x3E000000).map Prod.fst = some 0 ∧
    (encoded .nearestEven .smOr 0x3EC00000).map Prod.fst = some 2 := by decide

/-! ### The environment's items, each one step -/

/-- R31, R32: a two-byte access is little-endian. -/
theorem test_write_then_read_bytes :
    (after (memWrite 0xFE 2 0x0828 (opened [] []))).map State.regs = some [(0xFE, 0x28), (0xFF, 0x08)] := by decide
set_option maxRecDepth 8192 in
/-- S5: chunks of 32 at base and base + 32. -/
theorem test_chunked_read :
    (after (step (opened [] [.read 0x40 64]))).map State.busLog =
      some [.read 0x40 32, .read 0x60 32] := by decide
/-- The last chunk takes what remains (R39). -/
theorem test_chunked_read_remainder :
    (after (step (chunked 2 (opened [(7, 1), (8, 2), (9, 3)] [.read 7 3])))).map (fun s => (s.busLog, s.buf)) =
      some ([.read 7 2, .read 9 1], some [1, 2, 3]) := by decide
/-- R37. -/
theorem test_read_past_top : refusal (step (opened [] [.read 0xFF 2])) = some .pastTopOfSpace := by decide
/-- R40, R115: the second chunk fails. -/
theorem test_failed_chunk :
    (after (step { chunked 2 (opened [] [.read 0x40 4]) with bus := [.succeeds, .fails] })).map (fun s => (s.buf, s.calls)) =
      some (none, [.transactionFailure]) := by decide
/-- V6 row 2: an absent request with the reserved mode is no refusal. -/
theorem test_absent_reserved_mode :
    (after (step (opened [] [.decodeRequest ⟨false, 0b01, 0x64, 0⟩]))).map State.outValid = some false := by decide
/-- V6 row 5. -/
theorem test_absent_nan :
    (after (step (opened [] [.encodeRequest ⟨false, 0x7FC00000⟩]))).map State.encOutValid = some false := by decide
/-- R18: both paths at once. -/
theorem test_both_paths :
    (after (step (opened [] [.bothRequests ⟨true, 0b00, 0x64, 0x00⟩ ⟨true, 0x41C80000⟩]))).map
      (fun s => (s.outValid, s.encOutValid, s.responses.length)) = some (true, true, 2) := by decide
/-- R19: an output whose valid is 0 is not used. -/
theorem test_store_without_output : refusal (step (opened [] [.storeValue])) = some .outputNotValid := by decide
/-- R108: the read of RD_THM, at the thermistor register. -/
theorem test_rdThm_reads :
    (after (step (opened [(0x0E, 0x64), (0x0F, 0x08)] [.rdThm]))).map (fun s => (s.buf, s.program)) =
      some (some [0x64, 0x08], [.sample 0b11 0, .storeValue]) := by decide
/-- R112: no decode of the flag bytes. -/
theorem test_rdFlags :
    (after (step (opened [(0x10, 0xA5), (0x11, 0x5A)] [.rdFlags 2]))).map (fun s => (s.buf, s.outValid)) =
      some (some [0xA5, 0x5A], false) := by decide
/-- R114. -/
theorem test_failed_open :
    (after (step { opened [] [.openDevice 0x69, .rdThm] with bus := [.fails] })).map
      (fun s => (s.program, s.calls)) = some ([], [.initializationFailure]) := by decide

/-! ### Witnesses: a state and operands that meet each obligation's hypotheses -/

theorem witness_UpperNibbleHasNoEffect :
    (0b00#2 ≠ 0b01#2 ∧ 0b10#2 ≠ 0b01#2 ∧ 0b11#2 ≠ 0b01#2) ∧
    (0x08 : Byte).extractLsb' 0 4 = (0xF8 : Byte).extractLsb' 0 4 := by decide

theorem witness_FieldIsTheLowTwelveBits :
    ((0xF864 : Word) ^^^ 0x0864) &&& 0x0FFF = 0 ∧ ((0xF864 : Word) ^^^ 0xF064) &&& 0x0FFF ≠ 0 := by decide

theorem witness_SignMagnitudeReadingProperties :
    ((0x7FF : Field).toNat ≤ 0x7FF ∧ signMag12 0x7FF = 2047 ∧ twosComp12 0x7FF = 2047) ∧
    (0x801 ≤ (0x801 : Field).toNat ∧ signMag12 0x801 = -1 ∧ twosComp12 0x801 = -2047) ∧
    (0x801 ≤ (0xFFF : Field).toNat ∧ signMag12 0xFFF = -2047 ∧ twosComp12 0xFFF = -1) := by decide

theorem witness_TwosComplementReadingIsBijection :
    ((-2048 : ℤ) ≤ -2048 ∧ (-2048 : ℤ) ≤ 2047 ∧ twosComp12 (tc12 (-2048)) = -2048) ∧
    ((-2048 : ℤ) ≤ 2047 ∧ (2047 : ℤ) ≤ 2047 ∧ twosComp12 (tc12 2047) = 2047) ∧
    (0x800 : Field).getLsbD 11 = true ∧ (0xC00 : Field).getLsbD 11 = true := by decide

theorem witness_TwosComplementReadingIsSignExtension :
    (0x7FF : Field).getLsbD 11 = false ∧ (0x800 : Field).getLsbD 11 = true := by decide

theorem witness_ShiftFormulationSignExtends : (field12 0xF864).getLsbD 11 = true := by decide

theorem witness_Float32OfIsExact :
    ((0 : ℤ).natAbs ≤ 4095 ∧ (0 : ℤ) = 0) ∧ ((-4095 : ℤ).natAbs ≤ 4095 ∧ (-4095 : ℤ) ≠ 0) ∧
    ((1 : ℤ).natAbs ≤ 4095 ∧ (1 : ℤ) ≠ 0) ∧ (2 = 2 ∨ 2 = 4) ∧ (4 = 2 ∨ 4 = 4) := by decide

theorem witness_ScalingMultipliesByTheConstant :
    ((-2048 : ℤ) ≤ -2048 ∧ (-2048 : ℤ) ≤ 2047) ∧ ((-2048 : ℤ) ≤ 2047 ∧ (2047 : ℤ) ≤ 2047) := by decide

theorem witness_EncThrDividesClampsAndSplits :
    State.reset.params.encDefaults ∧ isNaN 0x7F800001 = true ∧ isNaN 0xC2C7CCCD = false ∧
    isFinite 0xC2C7CCCD = true ∧ isNaN 0x7F800000 = false ∧ isNaN 0xFF800000 = false := by decide

/-- 1024.0 has the quotient 4096, -1024.0 has -4096. -/
theorem value_of_1024 : fValue 0x44800000 = 1024 ∧ fValue 0xC4800000 = -1024 := by
  constructor
  · rw [fValue, show fScaled 0x44800000 = 1024 * 2 ^ 150 by decide]; norm_num
  · rw [fValue, show fScaled 0xC4800000 = -1024 * 2 ^ 150 by decide]; norm_num

theorem witness_EncThrRoundsAsTheParameterSays :
    (isFinite 0x44800000 = true ∧ RoundsTo .towardZero (4 * fValue 0x44800000) 4096 ∧ (4095 : ℤ) < 4096) ∧
    (isFinite 0xC4800000 = true ∧ RoundsTo .towardZero (4 * fValue 0xC4800000) (-4096) ∧ (-4096 : ℤ) < -4095) ∧
    State.reset.params.encRound = .towardZero := by
  obtain ⟨h1, h2⟩ := value_of_1024
  refine ⟨⟨by decide, ?_, by decide⟩, ⟨by decide, ?_, by decide⟩, rfl⟩
  · show (4096 : ℤ) = truncate _
    rw [h1, truncate]; norm_num
  · show (-4096 : ℤ) = truncate _
    rw [h2, truncate]; norm_num

/-- A magnitude of 2047 and one of 2048 under each layout, and a quotient from 0 to 2047. -/
theorem witness_EncThrLaysOutTheSignAsTheParameterSays :
    isNaN 0xC3FFE000 = false ∧ encoded .towardZero .smOr 0xC3FFE000 = some (0xF801, 0xFF, 0x0F) ∧
    isNaN 0xC4000000 = false ∧ encoded .towardZero .smOr 0xC4000000 = some (0xF800, 0x00, 0x08) ∧
    encoded .towardZero .magnitudeOnly 0xC3FFE000 = some (0xF801, 0xFF, 0x07) ∧
    encoded .towardZero .twosComplementLow12 0xC3FFE000 = some (0xF801, 0x01, 0x08) ∧
    isNaN 0x43FFE000 = false ∧ encoded .towardZero .smOr 0x43FFE000 = some (0x07FF, 0xFF, 0x07) := by decide

theorem witness_EncThrSaturatesSilently :
    (isNaN 0x44800000 = false ∧ isFinite 0x44800000 = true ∧ 1024 ≤ fValue 0x44800000) ∧
    (isNaN 0xC4800000 = false ∧ isFinite 0xC4800000 = true ∧ fValue 0xC4800000 ≤ -1024) ∧
    isNaN 0x7F800000 = false ∧ isNaN 0xFF800000 = false ∧
    (isFinite 0x447FF000 = true ∧ fValue 0x447FF000 = 4095 / 4) ∧
    (isFinite 0xC47FF000 = true ∧ fValue 0xC47FF000 = -4095 / 4) := by
  obtain ⟨h1, h2⟩ := value_of_1024
  refine ⟨⟨by decide, by decide, h1.ge⟩, ⟨by decide, by decide, h2.le⟩, by decide, by decide, ⟨by decide, ?_⟩, ⟨by decide, ?_⟩⟩
  · rw [fValue, show fScaled 0x447FF000 = 4095 * 2 ^ 148 by decide]; norm_num
  · rw [fValue, show fScaled 0xC47FF000 = -4095 * 2 ^ 148 by decide]; norm_num

theorem witness_EncThrNonFiniteInputs :
    isInf 0x7F800000 = true ∧ isInf 0xFF800000 = true ∧ isNaN 0x7FC00000 = true := by decide

/-- -511.75 under the default layout, 511.75 under another layout, and a state of that layout. -/
theorem witness_ThresholdRoundTripWithinOneLsb :
    (isFinite 0xC3FFE000 = true ∧ |fValue 0xC3FFE000| < 512 ∧ State.reset.params.encRound = .towardZero ∧
      State.reset.params.encNegLayout = .smOr ∧ fValue 0xC3FFE000 = (-2047 : ℤ) / 4) ∧
    (isFinite 0x43FFE000 = true ∧ |fValue 0x43FFE000| < 512 ∧ 0 ≤ fValue 0x43FFE000) ∧
    (State.resetWith { Params.presumed with encNegLayout := .magnitudeOnly }).params.encRound = .towardZero ∧
    (State.resetWith { Params.presumed with encNegLayout := .magnitudeOnly }).params.encNegLayout ≠ .smOr := by
  have h : fValue 0xC3FFE000 = -2047 / 4 := by
    rw [fValue, show fScaled 0xC3FFE000 = -2047 * 2 ^ 148 by decide]; norm_num
  have k : fValue 0x43FFE000 = 2047 / 4 := by
    rw [fValue, show fScaled 0x43FFE000 = 2047 * 2 ^ 148 by decide]; norm_num
  refine ⟨⟨by decide, ?_, rfl, rfl, ?_⟩, ⟨by decide, ?_, ?_⟩, rfl, by decide⟩
  · rw [h]; norm_num [abs_lt]
  · rw [h]; norm_num
  · rw [k]; norm_num [abs_lt]
  · rw [k]; norm_num

/-- A quotient of magnitude 2048 and one of 4095. -/
theorem witness_ThresholdBytesLoseTheValueBeyond512 :
    isNaN 0xC4000000 = false ∧ State.reset.params.encNegLayout = .smOr ∧
    (encodeResult State.reset.params 0xC4000000).q.toInt.natAbs = 2048 ∧
    (encodeResult State.reset.params 0x44FA0000).q.toInt.natAbs = 4095 := by decide

theorem witness_EveryRequestWordHasItsVerdict : isNaN 0x41C80000 = false ∧ isNaN 0x7F800001 = true := by decide

theorem witness_DecodeOfEncodeIsTheRequest :
    WellFormed (.decPix 0xFF 0xFF) = true ∧ WellFormed (.reserved01 0 0) = true ∧ WellFormed (.decThr 0x64 0x08) = true ∧
    WellFormed (.decThm 0 0x80) = true ∧ WellFormed (.encThr 0x7F800000) = true := by decide

theorem witness_EncodeOfDecodeIsTheWord :
    decode (.dreq 0x3FFFF) = .ok (.decThm 0xFF 0xFF) ∧ decode (.ereq 0x80000000) = .ok (.encThr 0x80000000) := by decide

/-- Two states that differ in all but the encoder's parameters. -/
theorem witness_ResponsesDependOnTheRequestAlone :
    ∃ u, (State.reset.params.encRound = (opened [(3, 7)] [.rdThm]).params.encRound ∧
        State.reset.params.encNegLayout = (opened [(3, 7)] [.rdThm]).params.encNegLayout) ∧
      exec (.encThr 0x41C80000) State.reset = .next u := ⟨_, ⟨rfl, rfl⟩, rfl⟩

theorem witness_PresentingTwiceGivesTheSameResponse :
    ∃ u v, exec (.decThr 0x64 0x08) State.reset = .next u ∧ exec (.encThr 0xFF800000) State.reset = .next v :=
  ⟨_, _, rfl, rfl⟩

theorem witness_RequestsLeaveTheRestUnchanged :
    ∃ u v, (exec (.decPix 0x64 0x08) (opened [(3, 7)] []) = .next u ∧ (modeOf (.decPix 0x64 0x08)).isSome = true) ∧
      (exec (.encThr 0x41C80000) (opened [(3, 7)] []) = .next v ∧ modeOf (.encThr 0x41C80000) = none) :=
  ⟨_, _, ⟨rfl, rfl⟩, ⟨rfl, rfl⟩⟩

theorem witness_OnlyReservedAndNaNAreRefused :
    Defined (.decThm 0xFF 0xFF) = true ∧ Defined (.encThr 0xFF800000) = true ∧
    Defined (.reserved01 0 0) = false ∧ Defined (.encThr 0xFF800001) = false := by decide

theorem witness_AbsentRequestIsNoRefusal :
    (opened [] [.decodeRequest ⟨false, 0b01, 0x64, 0⟩]).program = .decodeRequest ⟨false, 0b01, 0x64, 0⟩ :: [] ∧
    (opened [] [.encodeRequest ⟨false, 0x7FC00000⟩]).program = .encodeRequest ⟨false, 0x7FC00000⟩ :: [] := ⟨rfl, rfl⟩

theorem witness_ValidQualifiersFollowTheInputs :
    ((opened [] [.decodeRequest ⟨true, 0b01, 0x64, 0⟩]).program = .decodeRequest ⟨true, 0b01, 0x64, 0⟩ :: []) ∧
    ((opened [] [.encodeRequest ⟨true, 0x7FC00000⟩]).program = .encodeRequest ⟨true, 0x7FC00000⟩ :: []) ∧
    isNaN 0x7FC00000 = true ∧ isNaN 0x41C80000 = false := ⟨rfl, rfl, rfl, rfl⟩

theorem witness_PathsDoNotInteract :
    ∃ (s u v : State) (rest : List Item) (d : DecodeIn) (e : EncodeIn),
      s.program = .bothRequests d e :: rest ∧ presentDecode d s = .next u ∧ presentEncode e s = .next v ∧
      d.inValid = true ∧ e.encValid = true :=
  ⟨opened [] [.bothRequests ⟨true, 0b11, 0x64, 0x08⟩ ⟨true, 0x41C80000⟩], _, _, _, _, _, rfl, rfl, rfl, rfl, rfl⟩

theorem witness_StepRunsTheDecodedRequest :
    ((opened [] [.decodeRequest ⟨true, 0b11, 0x64, 0x08⟩, .rdThm]).program =
        .decodeRequest { inValid := true, mode := 0b11, bLo := 0x64, bHi := 0x08 } :: [.rdThm] ∧
      decode (.dreq (0b11#2 ++ 0x08#8 ++ 0x64#8)) = .ok (.decThm 0x64 0x08)) ∧
    ((opened [] [.encodeRequest ⟨true, 0x41C80000⟩]).program =
        .encodeRequest { encValid := true, t := 0x41C80000 } :: [] ∧
      decode (.ereq 0x41C80000) = .ok (.encThr 0x41C80000)) ∧
    decodeTableWord 18 0x20828 = some (.decThr 0x28 0x08) ∧
    decodeTableWord 32 0x41C80000 = some (.encThr 0x41C80000) := by decide

/-- A state with registers, a response and a stored temperature, about to store another. -/
theorem witness_StepKeepsTheInvariant :
    ∃ s u : State, s.Inv ∧ s.regs ≠ [] ∧ step s = .next u ∧ s ≠ u := by
  refine ⟨opened [(3, 7), (0xFF, 1)] [.openDevice 0x69], _, ?_, by decide, rfl, by decide⟩
  exact ⟨by decide, ⟨rfl, rfl⟩, by simp [opened, State.reset, State.resetWith], by simp [opened, State.reset, State.resetWith],
    by simp [opened, State.reset, State.resetWith]⟩

theorem witness_NoStepChangesTheParameters : ∃ u, step (opened [] [.write 0x08 [0x28, 0x08]]) = .next u := ⟨_, rfl⟩

theorem witness_RecordsOnlyGrow :
    ∃ u, step (opened [] [.bothRequests ⟨true, 0b00, 0x64, 0x00⟩ ⟨true, 0x41C80000⟩]) = .next u ∧
      u.responses.length = 2 := ⟨_, rfl, rfl⟩

/-- A read that ends exactly at the top of the space. -/
theorem witness_ReadIsAllOrNothing :
    (opened [] []).isOpen = true ∧ 0 < (opened [] []).params.chunkSize ∧ (0x80 : Addr).toNat + 128 ≤ 256 ∧
    (0xFF : Addr).toNat + 1 ≤ 256 := by decide

/-- The last of four chunks fails, and the only transaction of a short read fails. -/
theorem witness_FailedReadSuppliesNoSample :
    ({ opened [] [] with bus := [.succeeds, .succeeds, .succeeds, .fails] }.isOpen = true ∧
      (0x80 : Addr).toNat + 128 ≤ 256 ∧ ¬ 128 ≤ State.reset.params.chunkSize ∧
      3 < (128 + State.reset.params.chunkSize - 1) / State.reset.params.chunkSize ∧
      [BusOutcome.succeeds, .succeeds, .succeeds, .fails][3]? = some .fails) ∧
    (2 ≤ State.reset.params.chunkSize ∧ 0 < 1 ∧ [BusOutcome.fails][0]? = some .fails) := by decide

/-- Two chunks up to the top of the space, the device changing the second register before the second byte. -/
theorem witness_ReadDeliversRegistersInAddressOrder :
    let s : State := { chunked 1 (opened [(0xFE, 1), (0xFF, 2)] []) with device := [[], [(0xFF, 9)]] }
    (∃ u, engineRead 0xFE 2 s = .next u ∧ u.buf = some [1, 9]) ∧
    (0 < 2 ∧ (registersAt s 1).peek ((0xFE : Addr).toNat + 0) = some 1) ∧
    (1 < 2 ∧ (registersAt s 2).peek ((0xFE : Addr).toNat + 1) = some 9) ∧
    s.isOpen = true ∧ 0 < s.params.chunkSize ∧ (0xFE : Addr).toNat + 2 ≤ 256 ∧ (∀ o ∈ s.bus, o = .succeeds) :=
  ⟨⟨_, rfl, rfl⟩, by decide⟩

/-- One chunk exactly, and one byte more than a chunk. -/
theorem witness_ChunkAddressesIncreaseMonotonically :
    (∀ o ∈ (chunked 2 (opened [] [])).bus, o = .succeeds) ∧
    (∃ u, engineRead 7 2 (chunked 2 (opened [] [])) = .next u ∧ 2 ≤ (chunked 2 (opened [] [])).params.chunkSize) ∧
    (∃ u, engineRead 7 3 (chunked 2 (opened [] [])) = .next u ∧ (chunked 2 (opened [] [])).params.chunkSize < 3) := by
  exact ⟨by decide, ⟨_, rfl, by decide⟩, ⟨_, rfl, by decide⟩⟩

theorem witness_AccessPastTheTopIsRefused :
    (opened [] []).isOpen = true ∧ 0 < (opened [] []).params.chunkSize ∧ 256 < (0xFF : Addr).toNat + 2 ∧
    256 < (0xFE : Addr).toNat + ([1, 2, 3] : List Byte).length := by decide

theorem witness_WriteIsOneTransaction :
    ((opened [] []).isOpen = true ∧ (0xFE : Addr).toNat + ([1, 2] : List Byte).length ≤ 256 ∧
      (opened [] []).busOutcome = .succeeds) ∧
    { opened [] [] with bus := [.fails] }.busOutcome = .fails ∧
    (opened [] [.write 0xFE [1, 2]]).program = .write 0xFE [1, 2] :: [] ∧
    (opened [] [.write8 0xFF 1]).program = .write8 0xFF 1 :: [] ∧
    (opened [] [.read 0xFE 2]).program = .read 0xFE 2 :: [] ∧
    (opened [] [.read8 0xFF]).program = .read8 0xFF :: [] := by decide

theorem witness_MemWriteThenMemReadIsLittleEndian :
    (opened [] []).isOpen = true ∧ 0 < (opened [] []).params.chunkSize ∧ (∀ o ∈ (opened [] []).bus, o = .succeeds) ∧
    (opened [] []).device = [] ∧ (0xFE : Addr).toNat + 2 ≤ 256 := by decide

theorem witness_SampleCanBeTorn :
    let s : State := { opened [(0xFE, 1), (0xFF, 1)] [] with device := [[], [(0xFE, 2), (0xFE + 1, 2)]] }
    s.isOpen = true ∧ 2 ≤ s.params.chunkSize ∧ (0xFE : Addr).toNat + 2 ≤ 256 ∧ s.busOutcome = .succeeds ∧
      s.regs.peek (0xFE : Addr).toNat = some 1 ∧ s.device = [[], [(0xFE, 2), (0xFE + 1, 2)]] := by decide

theorem witness_FailedOpenPresentsNoRequest :
    let s : State := { opened [] [.openDevice 0x69, .rdThm] with bus := [.fails] }
    s.program = .openDevice 0x69 :: [.rdThm] ∧ s.busOutcome = .fails := by decide

set_option maxRecDepth 8192 in
/-- A frame whose read fills the buffer, and one whose read fails. -/
theorem witness_DecFrameYieldsSixtyFourPixels :
    (∃ u bytes, (opened [] [.decFrame 0x80]).program = .decFrame 0x80 :: [] ∧
      engineRead 0x80 128 { opened [] [.decFrame 0x80] with program := [] } = .next u ∧ u.buf = some bytes) ∧
    (∃ u, engineRead 0x80 128 { opened [] [.decFrame 0x80] with program := [], bus := [.fails] } = .next u ∧
      u.buf = none) := by
  exact ⟨⟨_, _, rfl, rfl, rfl⟩, ⟨_, rfl, rfl⟩⟩

/-- The last of four chunks of a frame fails; the second byte of RD_THM fails with chunks of one byte; the only transaction of
RD_THR fails, at the last pair of the space. -/
theorem witness_FailedReadEndsTheSequence :
    (let s : State := { opened [] [.decFrame 0x80] with bus := [.succeeds, .succeeds, .succeeds, .fails] };
      s.program = .decFrame 0x80 :: [] ∧ s.isOpen = true ∧ 0 < s.params.chunkSize ∧ (0x80 : Addr).toNat + 128 ≤ 256 ∧
        3 < (if 128 ≤ s.params.chunkSize then 1 else (128 + s.params.chunkSize - 1) / s.params.chunkSize) ∧
        s.bus[3]? = some .fails) ∧
    (let s : State := { chunked 1 (opened [] [.rdThm]) with bus := [.succeeds, .fails] };
      s.program = .rdThm :: [] ∧ s.isOpen = true ∧ 0 < s.params.chunkSize ∧ s.params.thermBase.toNat + 2 ≤ 256 ∧
        1 < (if 2 ≤ s.params.chunkSize then 1 else (2 + s.params.chunkSize - 1) / s.params.chunkSize) ∧
        s.bus[1]? = some .fails) ∧
    (let s : State := { opened [] [.rdThr 0xFE] with bus := [.fails] };
      s.program = .rdThr 0xFE :: [] ∧ s.isOpen = true ∧ 0 < s.params.chunkSize ∧ (0xFE : Addr).toNat + 2 ≤ 256 ∧
        0 < (if 2 ≤ s.params.chunkSize then 1 else (2 + s.params.chunkSize - 1) / s.params.chunkSize) ∧
        s.bus[0]? = some .fails) := by decide

theorem witness_RdThmStoresTheThermistorTemperature :
    ∃ u, (opened [(0x0E, 0x64), (0x0F, 0x08)] [.rdThm]).program = .rdThm :: [] ∧
      engineRead State.reset.params.thermBase 2
        { opened [(0x0E, 0x64), (0x0F, 0x08)] [.rdThm] with program := [] } = .next u ∧
      u.buf = some [0x64, 0x08] := ⟨_, rfl, rfl, rfl⟩

theorem witness_RdThrStoresTheThreshold :
    ∃ u, (opened [(0x0A, 0x28), (0x0B, 0x08)] [.rdThr 0x0A]).program = .rdThr 0x0A :: [] ∧
      engineRead 0x0A 2 { opened [(0x0A, 0x28), (0x0B, 0x08)] [.rdThr 0x0A] with program := [] } = .next u ∧
      u.buf = some [0x28, 0x08] := ⟨_, rfl, rfl, rfl⟩

/-- The thresholds of V5 rows 13, 11 and 15. -/
theorem witness_EncTripleWritesThreeRegisterPairs :
    let s := opened [] [.encTriple 0x42A00000 0xC1200000 0x40000000]
    s.program = .encTriple 0x42A00000 0xC1200000 0x40000000 :: [] ∧ s.isOpen = true ∧ s.params.wf ∧
      (∀ o ∈ s.bus, o = .succeeds) ∧ isNaN 0x42A00000 = false ∧ isNaN 0xC1200000 = false ∧
      isNaN 0x40000000 = false := by decide

theorem witness_InterruptFlagsPassUnchanged :
    ∃ u, (opened [] [.rdFlags 8]).program = .rdFlags 8 :: [] ∧ step (opened [] [.rdFlags 8]) = .next u := ⟨_, rfl, rfl⟩

/-- A first Open, and one repeated on an open device. -/
theorem witness_SuccessfulOpenKeepsTheProgram :
    (let s : State := { State.reset with program := [.openDevice 0x69, .rdThm] };
      s.program = .openDevice 0x69 :: [.rdThm] ∧ s.busOutcome = .succeeds) ∧
    (opened [] [.openDevice 0x68]).program = .openDevice 0x68 :: [] ∧
    (opened [] [.openDevice 0x68]).busOutcome = .succeeds := by decide

/-- Never opened, and failed to open; a threshold to write among the items. -/
theorem witness_AccessWithoutAnOpenDeviceIsRefused :
    (let s : State := { State.reset with program := [.read 0x80 128] };
      s.isOpen = false ∧ s.program = .read 0x80 128 :: []) ∧
    (let s : State := { State.reset with
        transport := .failed, encOut := some { q := 0, rLo := 0, rHi := 0 }, program := [.storeThreshold 0x08] };
      s.isOpen = false ∧ s.program = .storeThreshold 0x08 :: [] ∧ s.encOutValid = true) := by decide

theorem witness_OutputsAreUsedOnlyWhereValid :
    ((opened [] [.storeValue]).program = .storeValue :: [] ∧ (opened [] [.storeValue]).outValid = false) ∧
    ((opened [] [.storeThreshold 8]).program = .storeThreshold 8 :: [] ∧
      (opened [] [.storeThreshold 8]).encOutValid = false) ∧
    (∃ r, { opened [] [.storeValue] with decOut := decodePath ⟨true, 0b11, 0x64, 0x08⟩ }.decOut = some r) ∧
    (∃ r, { opened [] [.storeThreshold 8] with encOut := encodePath Params.presumed ⟨true, 0x41C80000⟩ }.encOut =
      some r) := ⟨⟨rfl, rfl⟩, ⟨rfl, rfl⟩, ⟨_, rfl⟩, ⟨_, rfl⟩⟩

end Sys2Proof.Tests
end

section
/-! What the block's requests do, said over every state at once (spec R13, R18, R19, R20, R23): the answer of a request and the
frame of it, the valid qualifiers, and that the two paths do not interact. -/

namespace Sys2Proof.Machine

/-! ### A request of the block -/

/-- A request that answers in one state answers in every state, and does there only this: it drives its own path and adds one
response. On the decode path the result does not mention the state; on the encode path it reads the parameters. -/
theorem exec_answers_everywhere {i : Instr} {s u : State} (h : exec i s = .next u) :
    (∃ m lo hi r, modeOf i = some m ∧ ∀ s', exec i s' = .next (s'.respondDecode m lo hi r)) ∨
    (∃ t, modeOf i = none ∧ ∀ s', exec i s' = .next (s'.respondEncode t (encodeResult s'.params t))) := by
  cases i with
  | decPix lo hi => exact .inl ⟨_, lo, hi, _, rfl, fun s' => exec_decPix s' lo hi⟩
  | reserved01 lo hi => simp at h
  | decThr lo hi => exact .inl ⟨_, lo, hi, _, rfl, fun s' => exec_decThr s' lo hi⟩
  | decThm lo hi => exact .inl ⟨_, lo, hi, _, rfl, fun s' => exec_decThm s' lo hi⟩
  | encThr t =>
    cases hn : isNaN t with
    | true => simp [exec_encThr_nan s hn] at h
    | false => exact .inr ⟨t, rfl, fun s' => exec_encThr_not_nan s' hn⟩

/-- Of the parameters the encoder reads its two own ones (spec R6). -/
theorem encodeResult_congr {p p' : Params} (t : Binary32) (hr : p.encRound = p'.encRound)
    (hl : p.encNegLayout = p'.encNegLayout) : encodeResult p t = encodeResult p' t := by
  simp only [encodeResult, hr, hl]

/-- Settles O29: a request's answer does not look at the state, but for the encoder's two parameters. -/
theorem responsesDependOnTheRequestAlone : Obligations.ResponsesDependOnTheRequestAlone := by
  intro i s s' u hp h
  obtain ⟨m, lo, hi, r, -, hexec⟩ | ⟨t, hmode, hexec⟩ := exec_answers_everywhere h
  · obtain rfl : s.respondDecode m lo hi r = u := by simpa [hexec] using h
    refine ⟨_, .decode r, hexec s', rfl, rfl, ?_, nofun⟩
    rintro _ ⟨⟩
    exact ⟨rfl, rfl, rfl⟩
  · obtain rfl : s.respondEncode t (encodeResult s.params t) = u := by simpa [hexec] using h
    obtain ⟨hround, hlayout⟩ := hp hmode
    have hsame : encodeResult s'.params t = encodeResult s.params t := encodeResult_congr t hround.symm hlayout.symm
    refine ⟨_, .encode (encodeResult s.params t), hexec s', rfl, by simp [hsame], nofun, ?_⟩
    rintro _ ⟨⟩
    exact ⟨rfl, by simp [hsame], rfl⟩

/-- Settles O31: the answer of a request is one of the two updates that drive a path, whose fields Laws/State names. -/
theorem requestsLeaveTheRestUnchanged : Obligations.RequestsLeaveTheRestUnchanged := by
  intro i s u h
  obtain ⟨m, lo, hi, r, hmode, hexec⟩ | ⟨t, hmode, hexec⟩ := exec_answers_everywhere h
  · obtain rfl : s.respondDecode m lo hi r = u := by simpa [hexec] using h
    simp [hmode]
  · obtain rfl : s.respondEncode t (encodeResult s.params t) = u := by simpa [hexec] using h
    simp [hmode]

/-! ### The valid qualifiers (spec R19) -/

theorem decodeValid_iff (d : DecodeIn) : decodeValid d = true ↔ d.inValid = true ∧ d.mode ≠ 0b01 := by
  simp [decodeValid]

theorem encodeValid_iff (e : EncodeIn) (nan : Bool) : encodeValid e nan = true ↔ e.encValid = true ∧ nan = false := by
  simp [encodeValid]

/-- The decode path puts out something exactly where its valid qualifier is 1. -/
theorem isSome_decodePath_iff (d : DecodeIn) :
    (decodePath d).isSome = true ↔ d.inValid = true ∧ d.mode ≠ 0b01 := by
  rw [← decodeValid_iff, decodePath]
  split <;> simp_all

/-- The encode path puts out something exactly where its valid qualifier is 1. -/
theorem isSome_encodePath_iff (p : Params) (e : EncodeIn) :
    (encodePath p e).isSome = true ↔ e.encValid = true ∧ isNaN e.t = false := by
  rw [← encodeValid_iff, encodePath]
  split <;> simp_all

/-- A presented request of the reserved mode is refused. -/
theorem presentDecode_reserved (s : State) {d : DecodeIn} (hv : d.inValid = true) (hm : d.mode = 0b01) :
    presentDecode d s = .refused .reservedMode := by
  rw [presentDecode, if_pos hv, presentWord, DecodeIn.request, decode_dreqOf, hm]
  rfl

/-- Every other level of the decode path's inputs is answered, with the path's function on the output ports. -/
theorem presentDecode_answers (s : State) {d : DecodeIn} (h : ¬ (d.inValid = true ∧ d.mode = 0b01)) :
    ∃ u, presentDecode d s = .next u ∧ u.decOut = decodePath d := by
  obtain ⟨v, m, lo, hi⟩ := d
  cases v with
  | false => exact ⟨_, presentDecode_invalid s _ rfl, (decodePath_invalid m lo hi).symm⟩
  | true =>
    have hm : m ≠ 0b01#2 := fun hm => h ⟨rfl, hm⟩
    exact ⟨_, presentDecode_valid s m lo hi hm, (decodePath_valid m lo hi hm).symm⟩

/-- Every level of the encode path's inputs but a presented NaN is answered, with the path's function on the output ports. -/
theorem presentEncode_answers (s : State) {e : EncodeIn} (h : ¬ (e.encValid = true ∧ isNaN e.t = true)) :
    ∃ u, presentEncode e s = .next u ∧ u.encOut = encodePath s.params e := by
  obtain ⟨v, t⟩ := e
  cases v with
  | false => exact ⟨_, presentEncode_invalid s _ rfl, (encodePath_invalid s.params t).symm⟩
  | true =>
    have hn : isNaN t = false := by simpa using h
    exact ⟨_, presentEncode_valid s hn, (encodePath_valid s.params hn).symm⟩

/-- Settles O34: a presented path is refused on the one kind of input its rule names and puts out its function on every other. -/
theorem validQualifiersFollowTheInputs : Obligations.ValidQualifiersFollowTheInputs := by
  intro s rest d e
  constructor
  · intro hprog
    rw [step_cons hprog, runItem]
    refine ⟨fun ⟨hv, hm⟩ => presentDecode_reserved _ hv hm, fun h => ?_⟩
    obtain ⟨u, hu, hout⟩ := presentDecode_answers { s with program := rest } h
    have hsome : u.decOut.isSome = true ↔ d.inValid = true ∧ d.mode ≠ 0b01 := hout ▸ isSome_decodePath_iff d
    refine ⟨u, hu, hout, hsome, ?_⟩
    rw [← Option.not_isSome_iff_eq_none, hsome, ← Bool.not_eq_true]
    tauto
  · intro hprog
    rw [step_cons hprog, runItem]
    refine ⟨fun ⟨hv, hn⟩ => ?_, fun h => ?_⟩
    · obtain ⟨v, t⟩ := e
      obtain rfl : v = true := hv
      exact presentEncode_nan _ t hn
    · obtain ⟨u, hu, hout⟩ := presentEncode_answers { s with program := rest } h
      have hsome : u.encOut.isSome = true ↔ e.encValid = true ∧ isNaN e.t = false :=
        hout ▸ isSome_encodePath_iff s.params e
      refine ⟨u, hu, hout, hsome, ?_⟩
      rw [← Option.not_isSome_iff_eq_none, hsome, ← Bool.not_eq_true, ← Bool.not_eq_true]
      tauto

/-- Settles O33: with its valid input 0 a path idles, whatever its other inputs are. -/
theorem absentRequestIsNoRefusal : Obligations.AbsentRequestIsNoRefusal := by
  intro s rest mode bLo bHi t
  constructor
  · intro hprog
    exact ⟨_, (step_cons hprog).trans (presentDecode_invalid _ _ rfl), rfl, rfl, rfl⟩
  · intro hprog
    exact ⟨_, (step_cons hprog).trans (presentEncode_invalid _ _ rfl), rfl, rfl, rfl⟩

/-! ### The two paths at one instant (spec R18, R122) -/

/-- What presenting the decode path does in one state it does in every state: the same levels on the same ports, the same
responses added, nothing else. -/
theorem presentDecode_everywhere {d : DecodeIn} {s u : State} (h : presentDecode d s = .next u) :
    ∃ l, u.responses = s.responses ++ l ∧ ∀ s' : State, presentDecode d s' =
      .next { s' with decIn := u.decIn, decOut := u.decOut, responses := s'.responses ++ l } := by
  obtain ⟨hv, rfl⟩ | ⟨hv, hm, rfl⟩ := presentDecode_cases h
  · exact ⟨[], by simp, fun s' => by simp [hv, State.idleDecode]⟩
  · refine ⟨_, rfl, fun s' => ?_⟩
    obtain ⟨v, m, lo, hi⟩ := d
    obtain rfl : v = true := hv
    exact presentDecode_valid s' m lo hi hm

/-- What presenting the encode path does in one state it does in every state of the same parameters. -/
theorem presentEncode_everywhere {e : EncodeIn} {s u : State} (h : presentEncode e s = .next u) :
    ∃ l, u.responses = s.responses ++ l ∧ ∀ s' : State, s'.params = s.params → presentEncode e s' =
      .next { s' with encIn := u.encIn, encOut := u.encOut, responses := s'.responses ++ l } := by
  obtain ⟨hv, rfl⟩ | ⟨hv, hn, rfl⟩ := presentEncode_cases h
  · exact ⟨[], by simp, fun s' _ => by simp [hv, State.idleEncode]⟩
  · refine ⟨_, rfl, fun s' hp => ?_⟩
    obtain ⟨v, t⟩ := e
    obtain rfl : v = true := hv
    rw [presentEncode_valid s' hn, ← hp]
    rfl

/-- Settles O35: each path does in the state the other one leaves what it does alone. -/
theorem pathsDoNotInteract : Obligations.PathsDoNotInteract := by
  intro s u v rest d e hprog hdec henc
  obtain ⟨l, hl, hdec'⟩ := presentDecode_everywhere hdec
  obtain ⟨m, hm, henc'⟩ := presentEncode_everywhere henc
  have hstep : step s = presentEncode e
      { s with program := rest, decIn := u.decIn, decOut := u.decOut, responses := s.responses ++ l } := by
    rw [step_cons hprog, runItem, hdec', andThen]
  exact ⟨_, hstep.trans (henc' _ rfl), rfl, rfl, rfl, rfl, ⟨l, m, hl, hm, rfl⟩, rfl, rfl⟩

end Sys2Proof.Machine
end

section
/-! What every step of the machine keeps (spec R6, R21, R23, R105, R113): the parameters, and the records of what was answered,
stored, returned and issued, which only grow. Each operation is bounded once; the step is their case split. -/

namespace Sys2Proof.Machine

/-- The list was continued, by at most `n` entries. -/
def GrowsBy {α : Type} (n : Nat) (before after : List α) : Prop := ∃ l, after = before ++ l ∧ l.length ≤ n

theorem GrowsBy.refl {α : Type} (n : Nat) (l : List α) : GrowsBy n l l := ⟨[], by simp⟩

theorem GrowsBy.append_singleton {α : Type} (l : List α) (x : α) : GrowsBy 1 l (l ++ [x]) := ⟨[x], rfl, Nat.le_refl 1⟩

theorem GrowsBy.mono {α : Type} {m n : Nat} {l l' : List α} (h : GrowsBy m l l') (hmn : m ≤ n) : GrowsBy n l l' := by
  obtain ⟨k, hk, hlen⟩ := h
  exact ⟨k, hk, hlen.trans hmn⟩

theorem GrowsBy.trans {α : Type} {m n : Nat} {a b c : List α} (h : GrowsBy m a b) (k : GrowsBy n b c) :
    GrowsBy (m + n) a c := by
  obtain ⟨l, rfl, hl⟩ := h
  obtain ⟨r, rfl, hr⟩ := k
  exact ⟨l ++ r, List.append_assoc .., by rw [List.length_append]; omega⟩

/-- From `s` to `u` the parameters stayed, and the records were continued: by at most `r` responses, `t` temperatures and `c`
results of calls, and by any number of bus transactions. -/
structure RecordsGrow (r t c : Nat) (s u : State) : Prop where
  params    : u.params = s.params
  responses : GrowsBy r s.responses u.responses
  stored    : GrowsBy t s.stored u.stored
  calls     : GrowsBy c s.calls u.calls
  busLog    : ∃ l, u.busLog = s.busLog ++ l

theorem RecordsGrow.refl (r t c : Nat) (s : State) : RecordsGrow r t c s s where
  params := rfl
  responses := .refl ..
  stored := .refl ..
  calls := .refl ..
  busLog := ⟨[], by simp⟩

theorem RecordsGrow.mono {r t c r' t' c' : Nat} {s u : State} (h : RecordsGrow r t c s u) (hr : r ≤ r' := by decide)
    (ht : t ≤ t' := by decide) (hc : c ≤ c' := by decide) : RecordsGrow r' t' c' s u where
  params := h.params
  responses := h.responses.mono hr
  stored := h.stored.mono ht
  calls := h.calls.mono hc
  busLog := h.busLog

theorem RecordsGrow.trans {r t c r' t' c' : Nat} {s u v : State} (h : RecordsGrow r t c s u)
    (k : RecordsGrow r' t' c' u v) : RecordsGrow (r + r') (t + t') (c + c') s v where
  params := k.params.trans h.params
  responses := h.responses.trans k.responses
  stored := h.stored.trans k.stored
  calls := h.calls.trans k.calls
  busLog := by
    obtain ⟨l, hl⟩ := h.busLog
    obtain ⟨l', hl'⟩ := k.busLog
    exact ⟨l ++ l', by rw [hl', hl, List.append_assoc]⟩

theorem presentDecode_recordsGrow {d : DecodeIn} {s u : State} (h : presentDecode d s = .next u) :
    RecordsGrow 1 0 0 s u := by
  obtain ⟨-, rfl⟩ | ⟨-, -, rfl⟩ := presentDecode_cases h
  · exact { RecordsGrow.refl 1 0 0 s with }
  · exact { RecordsGrow.refl 1 0 0 s with responses := .append_singleton .. }

theorem presentEncode_recordsGrow {e : EncodeIn} {s u : State} (h : presentEncode e s = .next u) :
    RecordsGrow 1 0 0 s u := by
  obtain ⟨-, rfl⟩ | ⟨-, -, rfl⟩ := presentEncode_cases h
  · exact { RecordsGrow.refl 1 0 0 s with }
  · exact { RecordsGrow.refl 1 0 0 s with responses := .append_singleton .. }

/-- Where storing the temperature answers, the temperature on `fval` was stored. -/
theorem storeValue_cases {s u : State} (h : storeValue s = .next u) :
    ∃ r, s.decOut = some r ∧ u = { s with stored := s.stored ++ [r.fval] } := by
  rw [storeValue] at h
  split at h
  · next r hr => exact ⟨r, hr, by simpa using h.symm⟩
  · simp at h

/-- Where writing the threshold answers, its two bytes were written. -/
theorem storeThreshold_cases {base : Addr} {s u : State} (h : storeThreshold base s = .next u) :
    ∃ r, s.encOut = some r ∧ memWrite base 2 (r.rHi ++ r.rLo) s = .next u := by
  rw [storeThreshold] at h
  split at h
  · next r hr => exact ⟨r, hr, h⟩
  · simp at h

theorem storeValue_recordsGrow {s u : State} (h : storeValue s = .next u) : RecordsGrow 0 1 0 s u := by
  obtain ⟨r, -, rfl⟩ := storeValue_cases h
  exact { RecordsGrow.refl 0 1 0 s with stored := .append_singleton .. }

/-- What a read does to the records before its call returns: it issues transactions. -/
theorem ReadFrame.recordsGrow {limit : Nat} {s u : State} (h : ReadFrame limit s u) : RecordsGrow 0 0 0 s u where
  params := h.params
  responses := h.responses ▸ .refl ..
  stored := h.stored ▸ .refl ..
  calls := h.calls ▸ .refl ..
  busLog := h.busLog.imp fun _ hl => hl.1

theorem returned_recordsGrow (s : State) (c : CallStatus) : RecordsGrow 0 0 1 s (s.returned c) :=
  { RecordsGrow.refl 0 0 1 s with calls := .append_singleton .. }

theorem issue_recordsGrow (s : State) (a : BusAccess) : RecordsGrow 0 0 0 s (s.issue a) :=
  { RecordsGrow.refl 0 0 0 s with busLog := ⟨[a], rfl⟩ }

theorem engineRead_recordsGrow {register : Addr} {count : Nat} {s u : State}
    (h : engineRead register count s = .next u) : RecordsGrow 0 0 1 s u := by
  obtain ⟨-, -, -, v, hframe, -, ⟨bytes, -, -, rfl⟩ | ⟨-, rfl⟩⟩ := engineRead_cases h
  · exact { hframe.recordsGrow.trans (returned_recordsGrow v .ok) with }
  · exact { hframe.recordsGrow.trans (returned_recordsGrow v .transactionFailure) with }

theorem engineWrite_recordsGrow {register : Addr} {bytes : List Byte} {s u : State}
    (h : engineWrite register bytes s = .next u) : RecordsGrow 0 0 1 s u := by
  have hissue := issue_recordsGrow s (.write register.toNat bytes)
  obtain ⟨-, -, ⟨-, rfl⟩ | ⟨-, rfl⟩⟩ := engineWrite_cases h
  · exact { hissue.trans (returned_recordsGrow _ .ok) with }
  · exact { hissue.trans (returned_recordsGrow _ .transactionFailure) with }

theorem storeThreshold_recordsGrow {base : Addr} {s u : State} (h : storeThreshold base s = .next u) :
    RecordsGrow 0 0 1 s u := by
  obtain ⟨r, -, hwrite⟩ := storeThreshold_cases h
  exact engineWrite_recordsGrow hwrite

theorem openDevice_recordsGrow {busAddress : Nat} {s u : State} (h : openDevice busAddress s = .next u) :
    RecordsGrow 0 0 1 s u := by
  have hissue := issue_recordsGrow s (.opening busAddress)
  obtain ⟨-, hopen⟩ | ⟨-, hopen⟩ := openDevice_cases busAddress s
  · obtain rfl := Host.Outcome.next.inj (hopen.symm.trans h)
    exact { hissue.trans (returned_recordsGrow _ .ok) with }
  · obtain rfl := Host.Outcome.next.inj (hopen.symm.trans h)
    exact { hissue.trans (returned_recordsGrow _ .initializationFailure) with }

theorem readThen_recordsGrow {base : Addr} {count : Nat} {items : List Item} {s u : State}
    (h : readThen base count items s = .next u) : RecordsGrow 0 0 1 s u := by
  obtain ⟨v, hread, ⟨-, rfl⟩ | ⟨-, rfl⟩⟩ := readThen_cases h
  · exact { engineRead_recordsGrow hread with }
  · exact engineRead_recordsGrow hread

/-- An item of the program adds at most two responses (both paths at one instant), one temperature and one result of a call. -/
theorem runItem_recordsGrow {item : Item} {s u : State} (h : runItem item s = .next u) : RecordsGrow 2 1 1 s u := by
  cases item with
  | decodeRequest d => exact (presentDecode_recordsGrow h).mono
  | encodeRequest e => exact (presentEncode_recordsGrow h).mono
  | bothRequests d e =>
    obtain ⟨v, hdec, henc⟩ := andThen_eq_next.1 h
    exact ((presentDecode_recordsGrow hdec).trans (presentEncode_recordsGrow henc)).mono
  | sample mode k => exact (presentDecode_recordsGrow h).mono
  | storeValue => exact (storeValue_recordsGrow h).mono
  | storeThreshold base => exact (storeThreshold_recordsGrow h).mono
  | openDevice busAddress => exact (openDevice_recordsGrow h).mono
  | read register count => exact (engineRead_recordsGrow h).mono
  | read8 register => exact (engineRead_recordsGrow h).mono
  | write register bytes => exact (engineWrite_recordsGrow h).mono
  | write8 register value => exact (engineWrite_recordsGrow h).mono
  | decFrame base => exact (readThen_recordsGrow h).mono
  | rdThm => exact (readThen_recordsGrow h).mono
  | encTriple high low hyst =>
    obtain rfl := Host.Outcome.next.inj h
    exact { RecordsGrow.refl 2 1 1 s with }
  | rdThr base => exact (readThen_recordsGrow h).mono
  | rdFlags count => exact (engineRead_recordsGrow h).mono

/-- The same of a step, which takes the item off the program first. -/
theorem step_recordsGrow {s u : State} (h : step s = .next u) : RecordsGrow 2 1 1 s u := by
  cases hprog : s.program with
  | nil =>
    obtain rfl := Host.Outcome.next.inj ((step_nil hprog).symm.trans h)
    exact .refl ..
  | cons item rest => exact { runItem_recordsGrow ((step_cons hprog).symm.trans h) with }

/-- Settles O39: no item of the program writes a parameter. -/
theorem noStepChangesTheParameters : Obligations.NoStepChangesTheParameters :=
  fun _ _ h => (step_recordsGrow h).params

/-- Settles O40, item by item of the program. -/
theorem recordsOnlyGrow : Obligations.RecordsOnlyGrow := by
  intro s u h
  obtain ⟨-, hresponses, hstored, hcalls, hbusLog⟩ := step_recordsGrow h
  exact ⟨hresponses, hstored, hcalls, hbusLog⟩

/-! ### The machine after reset (spec R25) -/

/-- After reset no request is presented and no output is there, nothing is known of the register space, and nothing is
recorded. -/
theorem inv_resetWith (p : Params) : (State.resetWith p).Inv where
  regs_wf := Memory.wf_nil
  ports := ⟨(decodePath_invalid ..).symm, (encodePath_invalid p 0).symm⟩
  responses := nofun
  stored := nofun
  busLog := nofun

/-- The presumed addresses and chunk size (log 3) meet the constraints of the OPEN-parameter table. -/
theorem Params.presumed_wf : Params.presumed.wf := by decide

/-- Settles O38, for every choice of the parameters. -/
theorem resetHasTheInvariant : Obligations.ResetHasTheInvariant :=
  fun p => ⟨inv_resetWith p, rfl, rfl, rfl, Params.presumed_wf⟩

/-! ### The use of an output (spec R19, R107, R109) -/

theorem storeValue_valid {s : State} {r : DecodeResult} (h : s.decOut = some r) :
    storeValue s = .next { s with stored := s.stored ++ [r.fval] } := by
  simp only [storeValue, h]

theorem storeValue_invalid {s : State} (h : s.outValid = false) : storeValue s = .refused .outputNotValid := by
  have hnone : s.decOut = none := by simpa [State.outValid] using h
  simp only [storeValue, hnone]

theorem storeThreshold_valid (base : Addr) {s : State} {r : EncodeResult} (h : s.encOut = some r) :
    storeThreshold base s = memWrite base 2 (r.rHi ++ r.rLo) s := by
  simp only [storeThreshold, h]

theorem storeThreshold_invalid (base : Addr) {s : State} (h : s.encOutValid = false) :
    storeThreshold base s = .refused .outputNotValid := by
  have hnone : s.encOut = none := by simpa [State.encOutValid] using h
  simp only [storeThreshold, hnone]

/-- Settles O58: taking the item off the program leaves the output ports, and the item uses them only where they are valid. -/
theorem outputsAreUsedOnlyWhereValid : Obligations.OutputsAreUsedOnlyWhereValid := by
  intro s rest base
  constructor
  · intro hprog
    rw [step_cons hprog, runItem]
    exact ⟨fun h => storeValue_invalid h, fun r h => storeValue_valid h⟩
  · intro hprog
    rw [step_cons hprog, runItem]
    exact ⟨fun h => storeThreshold_invalid base h, fun r h => storeThreshold_valid base h⟩

end Sys2Proof.Machine
end

section
/-! The invariant of the machine (spec R13, R27, R37, R39, R59, R63, R70, R90): what either path puts out is sound, and each
operation of the environment keeps the invariant; the step is their case split. -/

namespace Sys2Proof.Machine

/-! ### What the two paths put out -/

theorem natAbs_signMag12_le (f : Field) : (signMag12 f).natAbs ≤ 2047 := by
  have hm : (f.extractLsb' 0 11).toNat < 2 ^ 11 := (f.extractLsb' 0 11).isLt
  rw [signMag12]
  split <;> omega

theorem twosComp12_bounds (f : Field) : -2048 ≤ twosComp12 f ∧ twosComp12 f ≤ 2047 := by
  have hf : f.toNat < 2 ^ 12 := f.isLt
  have hsign : f.getLsbD 11 = decide (2 ^ 11 ≤ f.toNat) := BitVec.msb_eq_decide f
  rw [twosComp12, hsign]
  split
  · next h =>
    have hge := of_decide_eq_true h
    omega
  · next h =>
    have hlt : ¬ 2 ^ 11 ≤ f.toNat := by simpa using h
    omega

/-- The count of a field fits a 12-bit two's-complement number, whichever of its two readings is taken (spec R59). -/
theorem countOf_bounds (m : Mode) (f : Field) : -2048 ≤ countOf m f ∧ countOf m f ≤ 2047 := by
  rw [countOf]
  split
  · have := natAbs_signMag12_le f
    omega
  · exact twosComp12_bounds f

/-- The 16-bit pattern of a count spells the count. -/
theorem toInt_tc16 {i : Int} (hlo : -32768 ≤ i) (hhi : i ≤ 32767) : (tc16 i).toInt = i := by
  rw [tc16, BitVec.toInt_ofInt]
  exact Int.bmod_eq_of_le (by omega) (by omega)

theorem lsbExpOf_le (m : Mode) : lsbExpOf m ≤ 4 := by
  rw [lsbExpOf]
  split <;> decide

/-- A scaled count is positive zero or a normal number: its exponent is at least 127 - 4 and at most 127 + 11 (spec R90). -/
theorem goodTemperature_scale {i : Int} {k : Nat} (hi : i.natAbs ≤ 4095) (hk : k ≤ 4) : goodTemperature (scale i k) := by
  by_cases h0 : i = 0
  · exact .inl (by rw [h0, scale, float32Of_zero])
  · obtain ⟨-, hexp, -⟩ := float32Of_fields h0 hi hk
    obtain ⟨-, -, hlog⟩ := log2_bounds (Int.natAbs_ne_zero.2 h0) hi
    refine .inr ?_
    rw [scale, isNormal, hexp, Bool.and_eq_true, bne_iff_ne, bne_iff_ne]
    omega

/-- Every response of the decode path is sound. -/
theorem decodePath_sound {d : DecodeIn} {r : DecodeResult} (h : decodePath d = some r) : (Response.decode r).sound := by
  rw [decodePath] at h
  split at h
  · obtain rfl := Option.some.inj h
    obtain ⟨hlo, hhi⟩ := countOf_bounds d.mode (field12 (word16 d.bLo d.bHi))
    have hival := toInt_tc16 (i := countOf d.mode (field12 (word16 d.bLo d.bHi))) (by omega) (by omega)
    exact ⟨rfl, hlo.trans_eq hival.symm, hival.trans_le hhi, goodTemperature_scale (by omega) (lsbExpOf_le d.mode)⟩
  · simp at h

theorem clampedQuotient_bounds (r : EncRound) (t : Binary32) :
    -4095 ≤ clampedQuotient r t ∧ clampedQuotient r t ≤ 4095 := by
  have hclamp (q : Int) : -4095 ≤ clamp q ∧ clamp q ≤ 4095 := by
    rw [clamp, encMax]
    split_ifs <;> omega
  rw [clampedQuotient]
  split_ifs
  · exact ⟨by decide, by decide⟩
  · exact ⟨by decide, by decide⟩
  · exact hclamp _

/-- The upper nibble of the high register is 0 (spec R63). -/
theorem splitHi_lt (f : Field) : (splitHi f).toNat < 16 := by
  have hf : (f.extractLsb' 8 4).toNat < 2 ^ 4 := (f.extractLsb' 8 4).isLt
  rw [splitHi, BitVec.toNat_append]
  simpa using hf

/-- Every response of the encode path is sound. -/
theorem encodePath_sound {p : Params} {e : EncodeIn} {r : EncodeResult} (h : encodePath p e = some r) :
    (Response.encode r).sound := by
  rw [encodePath] at h
  split at h
  · obtain rfl := Option.some.inj h
    obtain ⟨hlo, hhi⟩ := clampedQuotient_bounds p.encRound e.t
    have hq := toInt_tc16 (i := clampedQuotient p.encRound e.t) (by omega) (by omega)
    exact ⟨hlo.trans_eq hq.symm, hq.trans_le hhi, splitHi_lt _⟩
  · simp at h

/-! ### What each operation makes of the invariant -/

/-- A new entry at the end of a list of which every entry has a property. -/
theorem forall_mem_append_singleton {α : Type} {P : α → Prop} {l : List α} {x : α} (hl : ∀ y ∈ l, P y) (hx : P x) :
    ∀ y ∈ l ++ [x], P y :=
  List.forall_mem_append.2 ⟨hl, List.forall_mem_singleton.2 hx⟩

theorem presentDecode_keepsInv {d : DecodeIn} {s u : State} (hs : s.Inv) (h : presentDecode d s = .next u) : u.Inv := by
  obtain ⟨hregs, ⟨-, henc⟩, hresponses, hstored, hbusLog⟩ := hs
  obtain ⟨v, m, lo, hi⟩ := d
  obtain ⟨hv, rfl⟩ | ⟨hv, hm, rfl⟩ := presentDecode_cases h
  · obtain rfl : v = false := hv
    exact ⟨hregs, ⟨(decodePath_invalid m lo hi).symm, henc⟩, hresponses, hstored, hbusLog⟩
  · obtain rfl : v = true := hv
    have hpath := decodePath_valid m lo hi hm
    exact ⟨hregs, ⟨hpath.symm, henc⟩, forall_mem_append_singleton hresponses (decodePath_sound hpath), hstored, hbusLog⟩

theorem presentEncode_keepsInv {e : EncodeIn} {s u : State} (hs : s.Inv) (h : presentEncode e s = .next u) : u.Inv := by
  obtain ⟨hregs, ⟨hdec, -⟩, hresponses, hstored, hbusLog⟩ := hs
  obtain ⟨v, t⟩ := e
  obtain ⟨hv, rfl⟩ | ⟨hv, hn, rfl⟩ := presentEncode_cases h
  · obtain rfl : v = false := hv
    exact ⟨hregs, ⟨hdec, (encodePath_invalid s.params t).symm⟩, hresponses, hstored, hbusLog⟩
  · obtain rfl : v = true := hv
    have hpath := encodePath_valid s.params hn
    exact ⟨hregs, ⟨hdec, hpath.symm⟩, forall_mem_append_singleton hresponses (encodePath_sound hpath), hstored, hbusLog⟩

/-- A stored temperature is the one on the output ports, which are the decode path's function of its inputs. -/
theorem storeValue_keepsInv {s u : State} (hs : s.Inv) (h : storeValue s = .next u) : u.Inv := by
  obtain ⟨r, hr, rfl⟩ := storeValue_cases h
  obtain ⟨-, -, -, hgood⟩ := decodePath_sound (hs.ports.1 ▸ hr)
  exact { hs with stored := forall_mem_append_singleton hs.stored hgood }

/-- The reads of a call are inside the space and no longer than a chunk (spec R37, R39). -/
theorem ReadFrame.keepsInv {s u : State} (h : ReadFrame s.params.chunkSize s u) (hs : s.Inv) : u.Inv where
  regs_wf := h.regs hs.regs_wf
  ports := by
    rw [State.portsAgree, h.decOut, h.decIn, h.encOut, h.encIn, h.params]
    exact hs.ports
  responses := h.responses ▸ hs.responses
  stored := h.stored ▸ hs.stored
  busLog := by
    obtain ⟨l, hl, hreads⟩ := h.busLog
    rw [hl, h.params]
    refine List.forall_mem_append.2 ⟨hs.busLog, fun x hx => ?_⟩
    obtain ⟨a, n, rfl, hn, ha⟩ := hreads x hx
    exact ⟨hn, ha⟩

theorem engineRead_keepsInv {register : Addr} {count : Nat} {s u : State} (hs : s.Inv)
    (h : engineRead register count s = .next u) : u.Inv := by
  obtain ⟨-, -, -, v, hframe, -, ⟨bytes, -, -, rfl⟩ | ⟨-, rfl⟩⟩ := engineRead_cases h
  · exact { hframe.keepsInv hs with }
  · exact { hframe.keepsInv hs with }

theorem issue_keepsInv {s : State} {a : BusAccess} (hs : s.Inv) (ha : a.sound s.params) : (s.issue a).Inv :=
  { hs with busLog := forall_mem_append_singleton hs.busLog ha }

theorem engineWrite_keepsInv {register : Addr} {bytes : List Byte} {s u : State} (hs : s.Inv)
    (h : engineWrite register bytes s = .next u) : u.Inv := by
  obtain ⟨-, hin, ⟨-, rfl⟩ | ⟨-, rfl⟩⟩ := engineWrite_cases h
  · exact { issue_keepsInv hs (a := .write register.toNat bytes) hin with regs_wf := Memory.wf_pokeAll hin hs.regs_wf }
  · exact { issue_keepsInv hs (a := .write register.toNat bytes) hin with regs_wf := Memory.wf_forget _ _ hs.regs_wf }

theorem storeThreshold_keepsInv {base : Addr} {s u : State} (hs : s.Inv) (h : storeThreshold base s = .next u) :
    u.Inv := by
  obtain ⟨r, -, hwrite⟩ := storeThreshold_cases h
  exact engineWrite_keepsInv hs hwrite

theorem openDevice_keepsInv {busAddress : Nat} {s u : State} (hs : s.Inv) (h : openDevice busAddress s = .next u) :
    u.Inv := by
  have hissue := issue_keepsInv hs (a := .opening busAddress) trivial
  obtain ⟨-, hopen⟩ | ⟨-, hopen⟩ := openDevice_cases busAddress s
  · obtain rfl := Host.Outcome.next.inj (hopen.symm.trans h)
    exact { hissue with }
  · obtain rfl := Host.Outcome.next.inj (hopen.symm.trans h)
    exact { hissue with }

theorem readThen_keepsInv {base : Addr} {count : Nat} {items : List Item} {s u : State} (hs : s.Inv)
    (h : readThen base count items s = .next u) : u.Inv := by
  obtain ⟨v, hread, ⟨-, rfl⟩ | ⟨-, rfl⟩⟩ := readThen_cases h
  · exact { engineRead_keepsInv hs hread with }
  · exact engineRead_keepsInv hs hread

theorem runItem_keepsInv {item : Item} {s u : State} (hs : s.Inv) (h : runItem item s = .next u) : u.Inv := by
  cases item with
  | decodeRequest d => exact presentDecode_keepsInv hs h
  | encodeRequest e => exact presentEncode_keepsInv hs h
  | bothRequests d e =>
    obtain ⟨v, hdec, henc⟩ := andThen_eq_next.1 h
    exact presentEncode_keepsInv (presentDecode_keepsInv hs hdec) henc
  | sample mode k => exact presentDecode_keepsInv hs h
  | storeValue => exact storeValue_keepsInv hs h
  | storeThreshold base => exact storeThreshold_keepsInv hs h
  | openDevice busAddress => exact openDevice_keepsInv hs h
  | read register count => exact engineRead_keepsInv hs h
  | read8 register => exact engineRead_keepsInv hs h
  | write register bytes => exact engineWrite_keepsInv hs h
  | write8 register value => exact engineWrite_keepsInv hs h
  | decFrame base => exact readThen_keepsInv hs h
  | rdThm => exact readThen_keepsInv hs h
  | encTriple high low hyst =>
    obtain rfl := Host.Outcome.next.inj h
    exact { hs with }
  | rdThr base => exact readThen_keepsInv hs h
  | rdFlags count => exact engineRead_keepsInv hs h

/-- Settles O37: the invariant does not look at the program, and every item of it keeps the invariant. -/
theorem stepKeepsTheInvariant : Obligations.StepKeepsTheInvariant := by
  intro s u hs h
  cases hprog : s.program with
  | nil =>
    obtain rfl := Host.Outcome.next.inj ((step_nil hprog).symm.trans h)
    exact hs
  | cons item rest =>
    have hrest : State.Inv { s with program := rest } := { hs with }
    exact runItem_keepsInv hrest ((step_cons hprog).symm.trans h)

end Sys2Proof.Machine
end

section
/-! The environment's accesses (spec R27 to R45): how a read is issued in transactions, when it fails, and what it delivers;
what a write and an `Open` leave; and that a request presented again, with no other read, is answered the same (spec R43). -/

namespace Sys2Proof.Machine

open Sys2Proof.Spec

/-! ### Presenting a request twice (spec R43) -/

/-- Settles O30: what a request does it does in every state, so the second answer drives the ports as the first did. -/
theorem presentingTwiceGivesTheSameResponse : Obligations.PresentingTwiceGivesTheSameResponse := by
  intro i s u h
  obtain ⟨m, lo, hi, r, -, hexec⟩ | ⟨t, -, hexec⟩ := exec_answers_everywhere h
  · obtain rfl : s.respondDecode m lo hi r = u := by simpa [hexec] using h
    exact ⟨_, .decode r, hexec _, rfl, by simp [State.respondDecode]⟩
  · obtain rfl : s.respondEncode t (encodeResult s.params t) = u := by simpa [hexec] using h
    exact ⟨_, .encode (encodeResult s.params t), hexec _, rfl, by simp [State.respondEncode]⟩

/-! ### The transport's outcomes (log 9) -/

theorem busOutcome_fails_iff (s : State) : s.busOutcome = .fails ↔ s.bus[0]? = some .fails := by
  rw [State.busOutcome]
  cases s.bus <;> simp

theorem busOutcome_succeeds_iff (s : State) : s.busOutcome = .succeeds ↔ s.bus[0]? ≠ some .fails := by
  rw [Ne, ← busOutcome_fails_iff]
  cases s.busOutcome <;> simp

/-- Where every outcome that is queued is a success, none is a failure. -/
theorem bus_getElem?_ne_fails {s : State} (h : ∀ o ∈ s.bus, o = .succeeds) (j : Nat) : s.bus[j]? ≠ some .fails :=
  fun hj => nomatch h _ (List.mem_of_getElem? hj)

theorem busOutcome_of_all_succeed {s : State} (h : ∀ o ∈ s.bus, o = .succeeds) : s.busOutcome = .succeeds :=
  (busOutcome_succeeds_iff s).2 (bus_getElem?_ne_fails h 0)

/-! ### The registers while the device acts (log 10) -/

@[simp] theorem registersAt_zero (s : State) : registersAt s 0 = s.regs := by
  simp [registersAt]

theorem registersAt_of_device_nil {s : State} (h : s.device = []) (n : Nat) : registersAt s n = s.regs := by
  simp [registersAt, h]

/-- After `n` of the device's updates the next `k` are those that follow in its queue. -/
theorem registersAt_add {s u : State} {n : Nat} (hregs : u.regs = registersAt s n) (hdevice : u.device = s.device.drop n)
    (k : Nat) : registersAt u k = registersAt s (n + k) := by
  rw [registersAt, hregs, hdevice, registersAt, registersAt, List.take_add, List.foldl_append]

theorem deviceActs_regs_eq_registersAt (s : State) : s.deviceActs.regs = registersAt s 1 := by
  rw [deviceActs_regs, registersAt]
  cases s.device with
  | nil => simp [Memory.update]
  | cons cells rest => simp

/-! ### What a read delivers (spec R29, R31, R36) -/

/-- From `s` to `u` the bytes of `n` registers from `a` on were read: byte `i` is what stands in its register after the device's
first `i + 1` updates, where that is known, and the registers change by those updates alone. -/
structure Delivers (a n : Nat) (s : State) (bytes : List Byte) (u : State) : Prop where
  length : bytes.length = n
  bytes  : ∀ i v, i < n → (registersAt s (i + 1)).peek (a + i) = some v → bytes[i]? = some v
  regs   : u.regs = registersAt s n
  device : u.device = s.device.drop n

theorem Delivers.refl (a : Nat) (s : State) : Delivers a 0 s [] s where
  length := rfl
  bytes := fun _ _ hi => absurd hi (Nat.not_lt_zero _)
  regs := (registersAt_zero s).symm
  device := rfl

/-- Two reads of consecutive registers are one read of all of them. -/
theorem Delivers.trans {a m n : Nat} {s u v : State} {front back : List Byte} (h : Delivers a m s front u)
    (k : Delivers (a + m) n u back v) : Delivers a (m + n) s (front ++ back) v where
  length := by rw [List.length_append, h.length, k.length]
  bytes := by
    intro i b hi hb
    by_cases him : i < m
    · rw [List.getElem?_append_left (by rw [h.length]; exact him)]
      exact h.bytes i b him hb
    · obtain ⟨j, rfl⟩ := Nat.exists_eq_add_of_le (Nat.le_of_not_lt him)
      rw [List.getElem?_append_right (by rw [h.length]; omega), h.length, Nat.add_sub_cancel_left]
      refine k.bytes j b (by omega) ?_
      rw [registersAt_add h.regs h.device, Nat.add_assoc a]
      exact hb
  regs := k.regs.trans (registersAt_add h.regs h.device n)
  device := by rw [k.device, h.device, List.drop_drop]

theorem readByte_delivers (a : Nat) (s : State) : Delivers a 1 s [(readByte a s).1] (readByte a s).2 where
  length := rfl
  bytes := by
    intro i v hi hv
    obtain rfl : i = 0 := by omega
    rw [← deviceActs_regs_eq_registersAt, Nat.add_zero] at hv
    rw [readByte_known hv]
    rfl
  regs := (readByte_device a s).1.trans (deviceActs_regs_eq_registersAt s)
  device := (readByte_device a s).2.1

theorem readBytes_delivers (n a : Nat) (s : State) : Delivers a n s (readBytes n a s).1 (readBytes n a s).2 := by
  induction n generalizing a s with
  | zero => exact .refl a s
  | succ n ih =>
    have hrest := ih (a + 1) (readByte a s).2
    have hall := (readByte_delivers a s).trans hrest
    rw [Nat.add_comm 1 n] at hall
    exact hall

/-- Everything one transaction can do: deliver its bytes, or fail and deliver none. -/
theorem busRead_cases (a n : Nat) (s : State) :
    (s.busOutcome = .succeeds ∧ ∃ bytes u, busRead a n s = (some bytes, u) ∧ Delivers a n s bytes u ∧
      u.params = s.params ∧ u.bus = s.bus.drop 1 ∧ u.busLog = s.busLog ++ [.read a n]) ∨
    (s.busOutcome = .fails ∧ ∃ u, busRead a n s = (none, u)) := by
  cases h : s.busOutcome with
  | succeeds =>
    obtain ⟨-, -, hbus, hlog⟩ := readBytes_device n a (s.issue (.read a n))
    obtain ⟨hlen, hbytes, hregs, hdevice⟩ := readBytes_delivers n a (s.issue (.read a n))
    exact .inl ⟨rfl, _, _, busRead_succeeds h, ⟨hlen, hbytes, hregs, hdevice⟩,
      (readBytes_frame 0 n a (s.issue (.read a n))).params, hbus, hlog⟩
  | fails => exact .inr ⟨rfl, _, busRead_fails h⟩

/-! ### The transactions of a read (spec R38, R39) -/

/-- How many chunks of at most `c` bytes carry `count` bytes. -/
def chunkCount (c count : Nat) : Nat := (count + c - 1) / c

/-- The transactions of a chunked read of `count` bytes from `first` on (spec R39). -/
def chunkAccesses (c first count : Nat) : List BusAccess :=
  (List.range (chunkCount c count)).map fun j => .read (first + j * c) (min c (count - j * c))

theorem chunkCount_zero {c : Nat} (hc : 0 < c) : chunkCount c 0 = 0 :=
  Nat.div_eq_of_lt (by omega)

/-- A chunk, and the chunks of what it leaves. -/
theorem chunkCount_step {c count : Nat} (hc : 0 < c) (hcount : 0 < count) :
    chunkCount c count = chunkCount c (count - min c count) + 1 := by
  obtain hle | hlt := Nat.le_total count c
  · rw [Nat.min_eq_right hle, Nat.sub_self, chunkCount_zero hc]
    exact Nat.div_eq_of_lt_le (by omega) (by omega)
  · rw [Nat.min_eq_left hlt, chunkCount, chunkCount, ← Nat.add_div_right _ hc]
    congr 1
    omega

theorem chunkAccesses_zero {c : Nat} (first : Nat) (hc : 0 < c) : chunkAccesses c first 0 = [] := by
  rw [chunkAccesses, chunkCount_zero hc]
  rfl

theorem chunkAccesses_step {c count : Nat} (first : Nat) (hc : 0 < c) (hcount : 0 < count) :
    chunkAccesses c first count =
      .read first (min c count) :: chunkAccesses c (first + min c count) (count - min c count) := by
  rw [chunkAccesses, chunkCount_step hc hcount, List.range_succ_eq_map, List.map_cons, List.map_map]
  congr 1
  · simp
  obtain hle | hlt := Nat.le_total count c
  · rw [Nat.min_eq_right hle, Nat.sub_self, chunkCount_zero hc, chunkAccesses_zero _ hc]
    rfl
  · have hshift (j : Nat) : (j + 1) * c = c + j * c := by rw [Nat.succ_mul, Nat.add_comm]
    simp [chunkAccesses, hshift, Nat.min_eq_left hlt, Nat.add_assoc, Nat.sub_sub]

/-- One of the next `k` transactions fails. -/
def State.FailsWithin (s : State) (k : Nat) : Prop := ∃ j, j < k ∧ s.bus[j]? = some .fails

theorem not_failsWithin_zero (s : State) : ¬ s.FailsWithin 0 :=
  fun ⟨_, hj, _⟩ => absurd hj (Nat.not_lt_zero _)

theorem not_failsWithin_of_all_succeed {s : State} (h : ∀ o ∈ s.bus, o = .succeeds) (k : Nat) : ¬ s.FailsWithin k :=
  fun ⟨j, _, hj⟩ => bus_getElem?_ne_fails h j hj

theorem failsWithin_of_fails {s : State} {k : Nat} (hk : 0 < k) (h : s.busOutcome = .fails) : s.FailsWithin k :=
  ⟨0, hk, (busOutcome_fails_iff s).1 h⟩

/-- After a transaction that succeeded it is one of the others that fails. -/
theorem failsWithin_succ_iff {s u : State} {k : Nat} (h : s.busOutcome = .succeeds) (hbus : u.bus = s.bus.drop 1) :
    s.FailsWithin (k + 1) ↔ u.FailsWithin k := by
  have hnext (j : Nat) : u.bus[j]? = s.bus[j + 1]? := by rw [hbus, List.getElem?_drop, Nat.add_comm]
  constructor
  · rintro ⟨_ | j, hj, hfails⟩
    · exact absurd hfails ((busOutcome_succeeds_iff s).1 h)
    · exact ⟨j, by omega, (hnext j).trans hfails⟩
  · rintro ⟨j, hj, hfails⟩
    exact ⟨j + 1, by omega, (hnext j).symm.trans hfails⟩

theorem failsWithin_one_iff (s : State) : s.FailsWithin 1 ↔ s.busOutcome = .fails := by
  constructor
  · rintro ⟨j, hj, hfails⟩
    obtain rfl : j = 0 := by omega
    exact (busOutcome_fails_iff s).2 hfails
  · exact failsWithin_of_fails Nat.one_pos

/-! The passes of the engine's loop -/

theorem chunkLoop_done {fuel register count transferred : Nat} {got : List Byte} {s : State} (h : transferred = count) :
    chunkLoop (fuel + 1) register count transferred got s = (some got, s) := by
  rw [chunkLoop, if_pos h]

theorem chunkLoop_stops {fuel register count transferred : Nat} {got : List Byte} {s u : State} (h : transferred ≠ count)
    (hread : busRead (register + transferred) (min s.params.chunkSize (count - transferred)) s = (none, u)) :
    chunkLoop (fuel + 1) register count transferred got s = (none, u) := by
  simp only [chunkLoop, if_neg h, hread]

theorem chunkLoop_continues {fuel register count transferred : Nat} {got bytes : List Byte} {s u : State}
    (h : transferred ≠ count)
    (hread : busRead (register + transferred) (min s.params.chunkSize (count - transferred)) s = (some bytes, u)) :
    chunkLoop (fuel + 1) register count transferred got s =
      chunkLoop fuel register count (transferred + min s.params.chunkSize (count - transferred)) (got ++ bytes) u := by
  simp only [chunkLoop, if_neg h, hread]

/-- What a read of `count` bytes from register `a` on comes to, given its `transactions`: where none of them fails they are issued
and the bytes delivered behind those in `got`; where one fails there are no bytes. -/
def ReadOutcome (a count : Nat) (got : List Byte) (transactions : List BusAccess) (s : State)
    (o : Option (List Byte) × State) : Prop :=
  (¬ s.FailsWithin transactions.length ∧ ∃ bytes, o.1 = some (got ++ bytes) ∧ Delivers a count s bytes o.2 ∧
    o.2.busLog = s.busLog ++ transactions) ∨
  (s.FailsWithin transactions.length ∧ o.1 = none)

/-- A transaction that succeeded, and the outcome of the read of the rest. -/
theorem ReadOutcome.cons {a m count : Nat} {got bytes : List Byte} {x : BusAccess} {l : List BusAccess} {s u : State}
    {o : Option (List Byte) × State} (hm : m ≤ count) (hok : s.busOutcome = .succeeds) (hdelivers : Delivers a m s bytes u)
    (hbus : u.bus = s.bus.drop 1) (hlog : u.busLog = s.busLog ++ [x])
    (h : ReadOutcome (a + m) (count - m) (got ++ bytes) l u o) : ReadOutcome a count got (x :: l) s o := by
  have hfails := failsWithin_succ_iff (k := l.length) hok hbus
  obtain ⟨hnot, rest, hrest, hdelivers', hlog'⟩ | ⟨hfail, hnone⟩ := h
  · refine .inl ⟨mt hfails.1 hnot, bytes ++ rest, ?_, Nat.add_sub_of_le hm ▸ hdelivers.trans hdelivers', ?_⟩
    · rw [hrest, List.append_assoc]
    · rw [hlog', hlog, List.append_assoc, List.singleton_append]
  · exact .inr ⟨hfails.2 hfail, hnone⟩

theorem ReadOutcome.of_fails {a n : Nat} {got : List Byte} {x : BusAccess} {l : List BusAccess} {s u : State}
    (h : s.busOutcome = .fails) : ReadOutcome a n got (x :: l) s (none, u) :=
  .inr ⟨failsWithin_of_fails (Nat.succ_pos _) h, rfl⟩

/-- Nothing is left to read. -/
theorem ReadOutcome.done (a : Nat) (got : List Byte) (s : State) : ReadOutcome a 0 got [] s (some got, s) :=
  .inl ⟨not_failsWithin_zero s, [], by simp, .refl a s, by simp⟩

/-- The engine's loop with `rest` bytes still to come: each pass is one of the chunks. -/
theorem chunkLoop_outcome {fuel register transferred rest : Nat} {got : List Byte} {s : State}
    (hc : 0 < s.params.chunkSize) (hfuel : rest ≤ fuel) :
    ReadOutcome (register + transferred) rest got (chunkAccesses s.params.chunkSize (register + transferred) rest) s
      (chunkLoop fuel register (transferred + rest) transferred got s) := by
  induction fuel generalizing transferred rest got s with
  | zero =>
    obtain rfl : rest = 0 := by omega
    rw [chunkAccesses_zero _ hc]
    exact .done ..
  | succ fuel ih =>
    obtain rfl | hrest := Nat.eq_zero_or_pos rest
    · rw [chunkAccesses_zero _ hc, chunkLoop_done (Nat.add_zero transferred).symm]
      exact .done ..
    have hne : transferred ≠ transferred + rest := by omega
    have hleft : transferred + rest - transferred = rest := by omega
    rw [chunkAccesses_step _ hc hrest]
    obtain ⟨hok, bytes, u, hread, hdelivers, hparams, hbus, hlog⟩ | ⟨hfails, u, hread⟩ :=
      busRead_cases (register + transferred) (min s.params.chunkSize rest) s
    · rw [chunkLoop_continues hne (hleft.symm ▸ hread), hleft]
      have hend : transferred + min s.params.chunkSize rest + (rest - min s.params.chunkSize rest) = transferred + rest := by
        omega
      have htail := ih (transferred := transferred + min s.params.chunkSize rest)
        (rest := rest - min s.params.chunkSize rest) (got := got ++ bytes) (hparams.symm ▸ hc) (by omega)
      rw [hend, hparams, ← Nat.add_assoc] at htail
      exact .cons (Nat.min_le_right ..) hok hdelivers hbus hlog htail
    · rw [chunkLoop_stops hne (hleft.symm ▸ hread)]
      exact .of_fails hfails

/-- The transactions of `Read(first, count)`: one up to the chunk size (spec R38), else the chunks (spec R39). -/
def readAccesses (c first count : Nat) : List BusAccess :=
  if count ≤ c then [.read first count] else chunkAccesses c first count

theorem length_readAccesses (c first count : Nat) :
    (readAccesses c first count).length = if count ≤ c then 1 else chunkCount c count := by
  rw [readAccesses]
  split
  · rfl
  · simp [chunkAccesses]

theorem engineBytes_outcome (register count : Nat) {s : State} (hc : 0 < s.params.chunkSize) :
    ReadOutcome register count [] (readAccesses s.params.chunkSize register count) s (engineBytes register count s) := by
  rw [engineBytes, readAccesses]
  split
  · obtain ⟨hok, bytes, u, hread, hdelivers, -, hbus, hlog⟩ | ⟨hfails, u, hread⟩ := busRead_cases register count s
    · rw [hread]
      refine .cons (Nat.le_refl count) hok hdelivers hbus hlog ?_
      rw [Nat.sub_self]
      exact .done ..
    · rw [hread]
      exact .of_fails hfails
  · have hloop := chunkLoop_outcome (register := register) (transferred := 0) (got := []) hc (Nat.le_refl count)
    rwa [Nat.add_zero, Nat.zero_add] at hloop

/-! ### `Read` (spec R29, R37, R40, R115) -/

/-- A read that answers leaves the ports, the responses, the stored temperatures and the program as they were. -/
theorem engineRead_leaves {register : Addr} {count : Nat} {s u : State} (h : engineRead register count s = .next u) :
    u.decIn = s.decIn ∧ u.decOut = s.decOut ∧ u.encIn = s.encIn ∧ u.encOut = s.encOut ∧
      u.responses = s.responses ∧ u.stored = s.stored ∧ u.program = s.program := by
  obtain ⟨-, -, -, v, hframe, -, ⟨bytes, -, -, rfl⟩ | ⟨-, rfl⟩⟩ := engineRead_cases h <;>
    exact ⟨hframe.decIn, hframe.decOut, hframe.encIn, hframe.encOut, hframe.responses, hframe.stored, hframe.program⟩

/-- A read that answers signals what its buffer says. -/
theorem engineRead_calls {register : Addr} {count : Nat} {s u : State} (h : engineRead register count s = .next u) :
    (∃ bytes, u.buf = some bytes ∧ bytes.length = count ∧ u.calls = s.calls ++ [.ok]) ∨
      (u.buf = none ∧ u.calls = s.calls ++ [.transactionFailure]) := by
  obtain ⟨-, -, -, v, hframe, -, ⟨bytes, -, hlen, rfl⟩ | ⟨-, rfl⟩⟩ := engineRead_cases h
  · exact .inl ⟨bytes, rfl, hlen, congrArg (· ++ _) hframe.calls⟩
  · exact .inr ⟨rfl, congrArg (· ++ _) hframe.calls⟩

/-- What a read that answers comes to: where none of its transactions fails they are issued and the buffer is delivered; where one
fails there is no buffer. -/
theorem engineRead_outcome {register : Addr} {count : Nat} {s u : State} (h : engineRead register count s = .next u) :
    (¬ s.FailsWithin (readAccesses s.params.chunkSize register.toNat count).length ∧
      ∃ bytes, u.buf = some bytes ∧ Delivers register.toNat count s bytes u ∧
        u.busLog = s.busLog ++ readAccesses s.params.chunkSize register.toNat count) ∨
    (s.FailsWithin (readAccesses s.params.chunkSize register.toNat count).length ∧ u.buf = none) := by
  obtain ⟨-, hc, -, v, -, rfl, hu⟩ := engineRead_cases h
  obtain ⟨hnot, bytes, hbytes, ⟨hlen, hget, hregs, hdevice⟩, hlog⟩ | ⟨hfails, hnone⟩ :=
    engineBytes_outcome register.toNat count hc
  · obtain ⟨bytes', hbytes', -, rfl⟩ | ⟨hnone, -⟩ := hu
    · obtain rfl : bytes = bytes' := Option.some.inj (hbytes.symm.trans hbytes')
      exact .inl ⟨hnot, bytes, rfl, ⟨hlen, hget, hregs, hdevice⟩, hlog⟩
    · exact nomatch hnone.symm.trans hbytes
  · obtain ⟨bytes, hbytes, -, -⟩ | ⟨-, rfl⟩ := hu
    · exact nomatch hnone.symm.trans hbytes
    · exact .inr ⟨hfails, rfl⟩

/-- A read of an open device inside the register space answers. -/
theorem engineRead_answers {register : Addr} {count : Nat} {s : State} (hopen : s.isOpen = true)
    (hc : 0 < s.params.chunkSize) (hin : register.toNat + count ≤ 256) : ∃ u, engineRead register count s = .next u := by
  rw [engineRead, hopen, if_neg (by simp), if_neg hc.ne', if_neg (Nat.not_lt.2 hin)]
  split <;> exact ⟨_, rfl⟩

/-- Such a read fills the buffer where none of its transactions fails. -/
theorem engineRead_fills {register : Addr} {count : Nat} {s : State} (hopen : s.isOpen = true)
    (hc : 0 < s.params.chunkSize) (hin : register.toNat + count ≤ 256)
    (hnot : ¬ s.FailsWithin (readAccesses s.params.chunkSize register.toNat count).length) :
    ∃ u bytes, engineRead register count s = .next u ∧ u.buf = some bytes := by
  obtain ⟨u, hu⟩ := engineRead_answers hopen hc hin
  obtain ⟨-, bytes, hbuf, -, -⟩ | ⟨hfails, -⟩ := engineRead_outcome hu
  · exact ⟨u, bytes, hu, hbuf⟩
  · exact absurd hfails hnot

theorem engineRead_pastTop {register : Addr} {count : Nat} {s : State} (hopen : s.isOpen = true)
    (hc : 0 < s.params.chunkSize) (h : 256 < register.toNat + count) :
    engineRead register count s = .refused .pastTopOfSpace := by
  rw [engineRead, hopen, if_neg (by simp), if_neg hc.ne', if_pos h]

theorem engineWrite_pastTop {register : Addr} {bytes : List Byte} {s : State} (hopen : s.isOpen = true)
    (h : 256 < register.toNat + bytes.length) : engineWrite register bytes s = .refused .pastTopOfSpace := by
  rw [engineWrite, hopen, if_neg (by simp), if_pos h]

/-- Settles O45: the bound is looked at before any transaction. -/
theorem accessPastTheTopIsRefused : Obligations.AccessPastTheTopIsRefused :=
  fun _ _ hopen hc => ⟨fun _ h => engineRead_pastTop hopen hc h, fun _ h => engineWrite_pastTop hopen h⟩

/-- Settles O41: such a read answers, and what answers fills the buffer as a whole or leaves none. -/
theorem readIsAllOrNothing : Obligations.ReadIsAllOrNothing := by
  intro register count s hopen hc hin
  obtain ⟨u, hu⟩ := engineRead_answers hopen hc hin
  exact ⟨u, hu, engineRead_calls hu, engineRead_leaves hu⟩

/-- Without a buffer a sample is presented with `in_valid` 0 (spec R40; log 17). -/
theorem sampleIn_inValid_of_no_buffer {s : State} (h : s.buf = none) (mode : Mode) (k : Nat) :
    (s.sampleIn mode k).inValid = false := by
  simp only [State.sampleIn, h]

/-- Settles O42: a transaction that fails is one of the read's, so there is no buffer and the sample idles the decode path. -/
theorem failedReadSuppliesNoSample : Obligations.FailedReadSuppliesNoSample := by
  intro register count j s hopen hc hin hj hfails
  obtain ⟨u, hu⟩ := engineRead_answers hopen hc hin
  have hwithin : s.FailsWithin (readAccesses s.params.chunkSize register.toNat count).length :=
    ⟨j, (length_readAccesses ..).symm ▸ hj, hfails⟩
  have hbuf : u.buf = none := by
    obtain ⟨hnot, -⟩ | ⟨-, hbuf⟩ := engineRead_outcome hu
    · exact absurd hwithin hnot
    · exact hbuf
  have hcalls : u.calls = s.calls ++ [.transactionFailure] := by
    obtain ⟨bytes, hsome, -⟩ | ⟨-, hcalls⟩ := engineRead_calls hu
    · exact nomatch hbuf.symm.trans hsome
    · exact hcalls
  obtain ⟨-, -, -, -, hresponses, -⟩ := engineRead_leaves hu
  refine ⟨u, hu, hbuf, hcalls, fun mode k rest => ?_⟩
  have hvalid := sampleIn_inValid_of_no_buffer (s := { u with program := rest }) hbuf mode k
  have hstep := step_cons (s := { u with program := .sample mode k :: rest }) rfl
  exact ⟨_, hstep.trans (presentDecode_invalid _ _ hvalid), hvalid, rfl, hresponses, rfl⟩

/-- Settles O43: the chunks of a read deliver together what one read of all its bytes does. -/
theorem readDeliversRegistersInAddressOrder : Obligations.ReadDeliversRegistersInAddressOrder := by
  constructor
  · intro register count s u bytes hu hbuf
    obtain ⟨-, bytes', hbuf', ⟨hlen, hget, hregs, hdevice⟩, -⟩ | ⟨-, hnone⟩ := engineRead_outcome hu
    · obtain rfl : bytes = bytes' := Option.some.inj (hbuf.symm.trans hbuf')
      exact ⟨hlen, hget, hregs, hdevice⟩
    · exact nomatch hnone.symm.trans hbuf
  · intro register count s hopen hc hin hall
    exact engineRead_fills hopen hc hin (not_failsWithin_of_all_succeed hall _)

/-- Settles O44: where none of a read's transactions fails, all of them were issued. -/
theorem chunkAddressesIncreaseMonotonically : Obligations.ChunkAddressesIncreaseMonotonically := by
  intro register count s u hall hu
  obtain ⟨-, bytes, -, -, hlog⟩ | ⟨hfails, -⟩ := engineRead_outcome hu
  · rw [hlog, readAccesses]
    exact ⟨fun hle => by rw [if_pos hle], fun hlt => by rw [if_neg (Nat.not_le.2 hlt)]; rfl⟩
  · exact absurd hfails (not_failsWithin_of_all_succeed hall _)

/-- Settles O48: the update between the two bytes is made before the second byte is read, and after the first. -/
theorem sampleCanBeTorn : Obligations.SampleCanBeTorn := by
  intro a s old new hopen hc hin hok hold hdevice
  have hnot : ¬ s.FailsWithin (readAccesses s.params.chunkSize a.toNat 2).length := by
    rw [length_readAccesses, if_pos hc, failsWithin_one_iff, hok]
    nofun
  obtain ⟨u, bytes, hu, hbuf⟩ := engineRead_fills hopen (Nat.zero_lt_of_lt hc) hin hnot
  obtain ⟨hlen, hget, hregs, -⟩ := readDeliversRegistersInAddressOrder.1 a 2 s u bytes hu hbuf
  have hnext : (a + 1).toNat = a.toNat + 1 := by bv_omega
  have hfirst : registersAt s 1 = s.regs := by simp [registersAt, hdevice, Memory.update]
  have hsecond : registersAt s 2 = (s.regs.poke a.toNat new).poke (a.toNat + 1) new := by
    rw [← hnext]
    simp [registersAt, hdevice, Memory.update]
  obtain ⟨lo, hi, rfl⟩ := List.length_eq_two.1 hlen
  obtain rfl : lo = old := Option.some.inj (hget 0 old (by decide) (hfirst ▸ hold))
  obtain rfl : hi = new := Option.some.inj (hget 1 new (by decide) (by rw [hsecond, Memory.peek_poke_self]))
  refine ⟨u, hu, hbuf, ?_⟩
  rw [hregs, hsecond, Memory.peek_poke_ne _ _ (Nat.ne_of_lt (Nat.lt_succ_self _)), Memory.peek_poke_self]

/-! ### `Write` and `MemWrite` (spec R32, R41) -/

theorem engineWrite_succeeds {register : Addr} {bytes : List Byte} {s : State} (hopen : s.isOpen = true)
    (hin : register.toNat + bytes.length ≤ 256) (hok : s.busOutcome = .succeeds) :
    engineWrite register bytes s =
      .next ({ s.issue (.write register.toNat bytes) with regs := s.regs.pokeAll register.toNat bytes }.returned .ok) := by
  rw [engineWrite, hopen, if_neg (by simp), if_neg (Nat.not_lt.2 hin)]
  simp only [hok]

theorem engineWrite_fails {register : Addr} {bytes : List Byte} {s : State} (hopen : s.isOpen = true)
    (hin : register.toNat + bytes.length ≤ 256) (hfails : s.busOutcome = .fails) :
    engineWrite register bytes s =
      .next ({ s.issue (.write register.toNat bytes) with
        regs := s.regs.forget register.toNat bytes.length }.returned .transactionFailure) := by
  rw [engineWrite, hopen, if_neg (by simp), if_neg (Nat.not_lt.2 hin)]
  simp only [hfails]

/-- Settles O46, by the outcome of the write's transaction. -/
theorem writeIsOneTransaction : Obligations.WriteIsOneTransaction := by
  constructor
  · intro register bytes s hopen hin
    cases hout : s.busOutcome with
    | succeeds =>
      exact ⟨_, engineWrite_succeeds hopen hin hout, rfl, fun _ => ⟨rfl, fun a => Memory.peek_pokeAll _ _ a _⟩, nofun,
        rfl, rfl, rfl, rfl⟩
    | fails =>
      exact ⟨_, engineWrite_fails hopen hin hout, rfl, nofun,
        fun _ => ⟨rfl, fun a ha => (Memory.peek_forget _ _ _ a).trans (if_neg ha)⟩, rfl, rfl, rfl, rfl⟩
  · intro register bytes value count s rest
    exact ⟨step_cons, step_cons, step_cons, step_cons⟩

theorem bytesLE_one (v : Word) : bytesLE 1 v = [v.extractLsb' 0 8] := rfl

theorem bytesLE_two (v : Word) : bytesLE 2 v = [v.extractLsb' 0 8, v.extractLsb' 8 8] := by
  have hhigh : (v >>> 8).extractLsb' 0 8 = v.extractLsb' 8 8 := by
    apply BitVec.eq_of_getLsbD_eq
    intro i _
    simp [BitVec.getLsbD_extractLsb', BitVec.getLsbD_ushiftRight]
  rw [← hhigh]
  rfl

/-- The two bytes of a word, low byte first, read as the word (spec R31, R32). -/
theorem leValue_bytesLE_two (v : Word) : leValue (bytesLE 2 v) = v.toNat := by
  have hv : v.toNat < 2 ^ 16 := v.isLt
  rw [bytesLE_two]
  simp only [leValue, BitVec.extractLsb'_toNat, Nat.shiftRight_eq_div_pow]
  omega

/-- A `MemRead` of a device that stands still, after a write of the same registers, gives the written bytes back. -/
theorem engineRead_after_write {register : Addr} {bytes : List Byte} {u : State} (hopen : u.isOpen = true)
    (hc : 0 < u.params.chunkSize) (hin : register.toNat + bytes.length ≤ 256) (hall : ∀ o ∈ u.bus, o = .succeeds)
    (hdevice : u.device = []) {m : Memory} (hregs : u.regs = m.pokeAll register.toNat bytes) :
    ∃ w, engineRead register bytes.length u = .next w ∧ w.buf = some bytes := by
  obtain ⟨w, got, hw, hbuf⟩ := readDeliversRegistersInAddressOrder.2 register bytes.length u hopen hc hin hall
  obtain ⟨hlen, hget, -, -⟩ := readDeliversRegistersInAddressOrder.1 register bytes.length u w got hw hbuf
  have hsame : got = bytes := by
    refine List.ext_getElem hlen fun i hi hi' => ?_
    have hpeek : (registersAt u (i + 1)).peek (register.toNat + i) = some bytes[i] := by
      rw [registersAt_of_device_nil hdevice, hregs, Memory.peek_pokeAll, if_pos ⟨by omega, by omega⟩,
        Nat.add_sub_cancel_left, List.getElem?_eq_getElem hi']
    exact (List.getElem_eq_iff hi).2 (hget i _ hi' hpeek)
  exact ⟨w, hw, hsame ▸ hbuf⟩

/-- Settles O47: the write puts the bytes of the value into consecutive registers, and the read finds them there. -/
theorem memWriteThenMemReadIsLittleEndian : Obligations.MemWriteThenMemReadIsLittleEndian := by
  intro a v s hopen hc hall hdevice
  have hok := busOutcome_of_all_succeed hall
  constructor
  · intro hin
    have hwrite := engineWrite_succeeds (bytes := bytesLE 2 v) hopen hin hok
    obtain ⟨w, hw, hbuf⟩ := engineRead_after_write (register := a) (bytes := bytesLE 2 v)
      (u := { s.issue (.write a.toNat (bytesLE 2 v)) with regs := s.regs.pokeAll a.toNat (bytesLE 2 v) }.returned .ok)
      hopen hc hin (fun o ho => hall o (List.mem_of_mem_drop ho)) hdevice rfl
    refine ⟨_, w, _, hwrite, ?_, ?_, fun x hx hx' => ?_, hw, hbuf, bytesLE_two v, leValue_bytesLE_two v⟩
    · exact (Memory.peek_pokeAll ..).trans (by simp [bytesLE_two])
    · exact (Memory.peek_pokeAll ..).trans (by simp [bytesLE_two])
    · exact (Memory.peek_pokeAll ..).trans (if_neg (by simp [bytesLE_two]; omega))
  · have hin : a.toNat + (bytesLE 1 v).length ≤ 256 := a.isLt
    refine ⟨_, engineWrite_succeeds hopen hin hok, ?_, fun x hx => ?_⟩
    · exact (Memory.peek_pokeAll ..).trans (by simp [bytesLE_one])
    · exact (Memory.peek_pokeAll ..).trans (if_neg (by simp [bytesLE_one]; omega))

/-! ### `Open` (spec R24, R42, R132) -/

/-- Settles O56: of the two outcomes of an `Open`, the one that succeeds. -/
theorem successfulOpenKeepsTheProgram : Obligations.SuccessfulOpenKeepsTheProgram := by
  intro s busAddress rest hprog hok
  obtain ⟨-, hopen⟩ | ⟨hfails, -⟩ := openDevice_cases busAddress { s with program := rest }
  · exact ⟨_, (step_cons hprog).trans hopen, rfl, rfl, rfl, rfl, rfl, rfl, rfl, rfl, rfl, rfl, rfl, rfl, rfl⟩
  · exact nomatch hok.symm.trans hfails

end Sys2Proof.Machine
end

section
/-! Request words (spec R54 to R57, R62, R65, R68, R100): a request and its word determine each other, the two registers of a threshold
spell its 12-bit value, and a scaled count is exact, so that AMG's functions return the count before scaling. -/

namespace Sys2Proof.Machine

/-! ### The request word and its parts (spec R55, R56) -/

/-- A decode request word is put together from its own three parts: no bit is dropped. -/
@[simp] theorem dreqOf_parts (w : Dreq) : dreqOf (dreqMode w) (dreqLo w) (dreqHi w) = w := by
  have hupper : dreqMode w ++ dreqHi w = w.extractLsb' 8 10 := BitVec.extractLsb'_append_extractLsb'_eq_extractLsb' rfl
  calc dreqOf (dreqMode w) (dreqLo w) (dreqHi w)
      = w.extractLsb' 8 10 ++ w.extractLsb' 0 8 := congrArg (· ++ dreqLo w) hupper
    _ = w := BitVec.extractLsb'_append_extractLsb'

theorem decode_ereq_not_nan {t : Binary32} (h : isNaN t = false) : decode (.ereq t) = .ok (.encThr t) := by
  simp [decode, h]

theorem decode_ereq_nan {t : Binary32} (h : isNaN t = true) : decode (.ereq t) = .error .nanThreshold := by
  simp [decode, h]

/-- Settles O26: the parts of an encoded decode request are the ones it was made of. -/
theorem decodeOfEncodeIsTheRequest : Obligations.DecodeOfEncodeIsTheRequest := by
  intro i hwf
  cases i with
  | decPix bLo bHi => exact decode_dreqOf 0b00 bLo bHi
  | reserved01 bLo bHi => exact decode_dreqOf 0b01 bLo bHi
  | decThr bLo bHi => exact decode_dreqOf 0b10 bLo bHi
  | decThm bLo bHi => exact decode_dreqOf 0b11 bLo bHi
  | encThr t => exact decode_ereq_not_nan (by simpa [WellFormed] using hwf)

/-- The decoder of decode request words has the encoder as its inverse, mode by mode. -/
theorem encode_of_decode_dreqOf {m : Mode} {lo hi : Byte} {i : Instr} (h : decode (.dreq (dreqOf m lo hi)) = .ok i) :
    encode i = .dreq (dreqOf m lo hi) ∧ WellFormed i = true := by
  rw [decode_dreqOf] at h
  obtain rfl := Except.ok.inj h
  rcases mode_cases m with rfl | rfl | rfl | rfl <;> exact ⟨rfl, rfl⟩

/-- Settles O27: a decode request word is made of its parts, and an encode request word is its operand. -/
theorem encodeOfDecodeIsTheWord : Obligations.EncodeOfDecodeIsTheWord := by
  intro w i h
  cases w with
  | dreq w =>
    rw [← dreqOf_parts w] at h ⊢
    exact encode_of_decode_dreqOf h
  | ereq t =>
    cases hn : isNaN t with
    | true => simp [decode_ereq_nan hn] at h
    | false =>
      obtain rfl : Instr.encThr t = i := by simpa [decode_ereq_not_nan hn] using h
      exact ⟨rfl, by simp [WellFormed, hn]⟩

/-- Settles O25: a decode request word has its verdict by its mode, an encode request word by whether it is a NaN. -/
theorem everyRequestWordHasItsVerdict : Obligations.EveryRequestWordHasItsVerdict := by
  refine ⟨fun bHi bLo => ⟨decode_dreqOf 0b00 bLo bHi, decode_dreqOf 0b01 bLo bHi, decode_dreqOf 0b10 bLo bHi,
    decode_dreqOf 0b11 bLo bHi⟩, fun w => ?_, fun t => ⟨decode_ereq_not_nan, decode_ereq_nan⟩⟩
  exact ⟨dreqMode w, dreqHi w, dreqLo w, (dreqOf_parts w).symm, rfl, rfl, rfl⟩

/-- Settles O4: the verdict is that of mode 01, and its meaning is the refusal. -/
theorem reservedModeIsRefused : Obligations.ReservedModeIsRefused :=
  fun bLo bHi s => ⟨decode_dreqOf 0b01 bLo bHi, exec_reserved01 s bLo bHi⟩

/-! ### The two registers of a 12-bit value (spec R54, R100) -/

/-- The assembled word is the high byte above the low byte (spec R69). -/
theorem word16_eq_append (lo hi : Byte) : word16 lo hi = hi ++ lo := by
  rw [word16, ← BitVec.setWidth_append_eq_shiftLeft_setWidth_or, BitVec.setWidth_eq]

/-- The two registers as a word: the value, under whatever nibble stands above it. -/
theorem word16_splitLo (f : Field) (upper : BitVec 4) :
    word16 (splitLo f) (upper ++ f.extractLsb' 8 4) = upper ++ f := by
  have hvalue : f.extractLsb' 8 4 ++ splitLo f = f := BitVec.extractLsb'_append_extractLsb'
  calc word16 (splitLo f) (upper ++ f.extractLsb' 8 4)
      = upper ++ f.extractLsb' 8 4 ++ splitLo f := word16_eq_append _ _
    _ = upper ++ (f.extractLsb' 8 4 ++ splitLo f) := BitVec.append_assoc
    _ = upper ++ f := by rw [hvalue]

/-- The field does not see the upper nibble of the word (spec R61, R70). -/
@[simp] theorem field12_append (upper : BitVec 4) (f : Field) : field12 (upper ++ f) = f :=
  BitVec.extractLsb'_append_eq_right

/-- Settles O22: the word of the two registers is the value under the high register's upper nibble, which the encoder writes as 0. -/
theorem splitRegistersReadBackAsTheValue : Obligations.SplitRegistersReadBackAsTheValue := by
  intro f
  refine ⟨rfl, rfl, ?_, fun upper => ?_⟩
  · calc word16 (splitLo f) (splitHi f)
        = 0#4 ++ f := word16_splitLo f 0#4
      _ = f.setWidth 16 := (BitVec.setWidth_eq_append (by decide)).symm
  · rw [word16_splitLo, field12_append]

/-! ### The value of a scaled count (spec R85, R91) -/

/-- The significand of a scaled count that is not zero, at the exponent of its leading bit: the count itself, shifted. -/
theorem significand_float32Of {a : Nat} (h0 : a ≠ 0) (ha : a ≤ 4095) :
    2 ^ 23 + (a - 2 ^ Nat.log2 a) * 2 ^ (23 - Nat.log2 a) = a * 2 ^ (23 - Nat.log2 a) := by
  obtain ⟨hle, -, hlog⟩ := log2_bounds h0 ha
  calc 2 ^ 23 + (a - 2 ^ Nat.log2 a) * 2 ^ (23 - Nat.log2 a)
      = 2 ^ Nat.log2 a * 2 ^ (23 - Nat.log2 a) + (a - 2 ^ Nat.log2 a) * 2 ^ (23 - Nat.log2 a) := by
        rw [← Nat.pow_add, Nat.add_sub_cancel' (by omega)]
    _ = a * 2 ^ (23 - Nat.log2 a) := by rw [← Nat.add_mul, Nat.add_sub_cancel' hle]

/-- A scaled count as an integer over `2^150`. -/
theorem fScaled_float32Of {i : Int} {k : Nat} (hi : i.natAbs ≤ 4095) (hk : k ≤ 4) :
    fScaled (float32Of i k) = i * 2 ^ (150 - k) := by
  by_cases h0 : i = 0
  · subst h0
    rw [float32Of_zero, Int.zero_mul]
    decide
  · have ha : i.natAbs ≠ 0 := Int.natAbs_ne_zero.2 h0
    obtain ⟨-, -, hlog⟩ := log2_bounds ha hi
    obtain ⟨hsign, hexp, hfrac⟩ := float32Of_fields h0 hi hk
    have hmagnitude : fSignificand (float32Of i k) * 2 ^ max (fExp (float32Of i k)) 1 = i.natAbs * 2 ^ (150 - k) := by
      rw [fSignificand, hexp, if_neg (by omega), hfrac, significand_float32Of ha hi, Nat.max_eq_left (by omega),
        Nat.mul_assoc, ← Nat.pow_add]
      congr 2
      omega
    rw [fScaled, hmagnitude, hsign]
    push_cast
    by_cases hneg : i < 0
    · simp [hneg, abs_of_neg hneg]
    · simp [hneg, abs_of_nonneg (not_lt.1 hneg)]

/-- A scaled count is exact (spec R91). -/
theorem fValue_float32Of {i : Int} {k : Nat} (hi : i.natAbs ≤ 4095) (hk : k ≤ 4) :
    fValue (float32Of i k) = (i : ℚ) / 2 ^ k := by
  have hpow : (2 : ℚ) ^ 150 = 2 ^ (150 - k) * 2 ^ k := by rw [← pow_add, Nat.sub_add_cancel (by omega)]
  rw [fValue, fScaled_float32Of hi hk, hpow]
  push_cast
  rw [mul_comm (i : ℚ), mul_div_mul_left _ _ (by positivity)]

/-! ### AMG's functions (spec R68) -/

/-- For a count that a field can spell: the number before scaling is the one on `ival`, and the temperature is that number
times the constant. -/
theorem count_before_scaling {i : Int} {k : Nat} (hi : i.natAbs ≤ 2048) (hk : k ≤ 4) :
    fValue (intToFloat i) = (tc16 i).toInt ∧ fValue (scale i k) = fValue (intToFloat i) * (1 / 2 ^ k) := by
  have hcount : fValue (intToFloat i) = i := by
    rw [intToFloat, fValue_float32Of (by omega) (by omega), pow_zero, div_one]
  refine ⟨by rw [hcount, toInt_tc16 (by omega) (by omega)], ?_⟩
  rw [scale, fValue_float32Of (by omega) hk, hcount, mul_one_div]

/-- Settles O16: both readings of a field lie in the range of a count, where the conversion and the scaling are exact. -/
theorem sourceFunctionsReturnTheCount : Obligations.SourceFunctionsReturnTheCount := by
  intro bLo bHi s
  rw [← word16_eq_append]
  have hpix : (twosComp12 (field12 (word16 bLo bHi))).natAbs ≤ 2048 := by
    have := twosComp12_bounds (field12 (word16 bLo bHi))
    omega
  have hthm : (signMag12 (field12 (word16 bLo bHi))).natAbs ≤ 2048 := (natAbs_signMag12_le _).trans (by decide)
  have hquarter : (1 : ℚ) / 4 = 1 / 2 ^ pixLsbExp := by norm_num [pixLsbExp]
  have hsixteenth : (1 : ℚ) / 16 = 1 / 2 ^ thmLsbExp := by norm_num [thmLsbExp]
  rw [hquarter, hsixteenth]
  obtain ⟨hpixCount, hpixValue⟩ := count_before_scaling (k := pixLsbExp) hpix (by decide)
  obtain ⟨hthmCount, hthmValue⟩ := count_before_scaling (k := thmLsbExp) hthm (by decide)
  exact ⟨_, _, exec_decPix s bLo bHi, exec_decThm s bLo bHi, hpixCount, hpixValue, hthmCount, hthmValue⟩

end Sys2Proof.Machine
end

section
/-! Word extraction (spec R69 to R71): the word spells its two bytes, the field is its low twelve bits, and beyond the word itself a
decode request reads nothing but the field. -/

namespace Sys2Proof.Machine

/-! ### The word and its bytes (spec R69) -/

@[simp] theorem word16_low_byte (lo hi : Byte) : (word16 lo hi).extractLsb' 0 8 = lo := by
  rw [word16_eq_append]
  exact BitVec.extractLsb'_append_eq_right

@[simp] theorem word16_high_byte (lo hi : Byte) : (word16 lo hi).extractLsb' 8 8 = hi := by
  rw [word16_eq_append]
  exact BitVec.extractLsb'_append_eq_left

theorem word16_inj {lo hi lo' hi' : Byte} (h : word16 lo hi = word16 lo' hi') : lo = lo' ∧ hi = hi' := by
  have hlow := congrArg (BitVec.extractLsb' 0 8) h
  have hhigh := congrArg (BitVec.extractLsb' 8 8) h
  exact ⟨by simpa using hlow, by simpa using hhigh⟩

theorem word16_bytes (w : Word) : word16 (w.extractLsb' 0 8) (w.extractLsb' 8 8) = w := by
  rw [word16_eq_append]
  exact BitVec.extractLsb'_append_extractLsb'

/-- Settles O5: the two bytes are read back from the word, and every word is made of its own two. -/
theorem wordAssemblyIsABijection : Obligations.WordAssemblyIsABijection := by
  refine ⟨fun lo hi => ⟨word16_eq_append lo hi, word16_low_byte lo hi, word16_high_byte lo hi, ?_⟩,
    fun w => ⟨_, _, word16_bytes w⟩, fun _ _ _ _ => word16_inj⟩
  constructor
  · intro hswap
    exact (word16_inj hswap).1
  · rintro rfl
    rfl

/-! ### The field and its mask (spec R70) -/

/-- The mask keeps the field, with zeros above it. -/
theorem toNat_field12 (w : Word) : (field12 w).toNat = (w &&& 0x0FFF).toNat := by
  calc (field12 w).toNat
      = w.toNat % 2 ^ 12 := BitVec.extractLsb'_toNat 0 12 w
    _ = w.toNat &&& (2 ^ 12 - 1) := (Nat.and_two_pow_sub_one_eq_mod w.toNat 12).symm
    _ = (w &&& 0x0FFF).toNat := (BitVec.toNat_and w 0x0FFF).symm

theorem field12_eq_zero_iff (w : Word) : field12 w = 0 ↔ w &&& 0x0FFF = 0 := by
  rw [← BitVec.toNat_inj, toNat_field12]
  exact BitVec.toNat_inj (y := 0#16)

/-- Words of the same field differ in no bit that the mask keeps. -/
theorem field12_eq_iff (w w' : Word) : field12 w = field12 w' ↔ (w ^^^ w') &&& 0x0FFF = 0 := by
  have hxor : field12 (w ^^^ w') = field12 w ^^^ field12 w' := BitVec.extractLsb'_xor
  rw [← field12_eq_zero_iff, hxor]
  exact BitVec.xor_eq_zero_iff.symm

/-- The field in the bytes of a sample: of the high byte it takes the low nibble alone. -/
theorem field12_word16 (lo hi : Byte) : field12 (word16 lo hi) = hi.extractLsb' 0 4 ++ lo := by
  have hnibbles : hi.extractLsb' 4 4 ++ hi.extractLsb' 0 4 = hi := BitVec.extractLsb'_append_extractLsb'
  have hword : word16 lo hi = hi.extractLsb' 4 4 ++ (hi.extractLsb' 0 4 ++ lo) :=
    calc word16 lo hi
        = hi ++ lo := word16_eq_append lo hi
      _ = hi.extractLsb' 4 4 ++ hi.extractLsb' 0 4 ++ lo := by rw [hnibbles]
      _ = hi.extractLsb' 4 4 ++ (hi.extractLsb' 0 4 ++ lo) := BitVec.append_assoc
  rw [hword]
  exact field12_append _ _

/-- Settles O6: the mask keeps the value of the field, whose bits are those of `b_lo` and of the low nibble of `b_hi`. -/
theorem fieldIsTheLowTwelveBits : Obligations.FieldIsTheLowTwelveBits :=
  ⟨toNat_field12, field12_word16, fun f upper => field12_append upper f, field12_eq_iff⟩

/-! ### What a decode request reads (spec R61, R71) -/

/-- Whatever the reading and the constant, words of the same field give the same outputs but `word`. -/
theorem decodeResult_congr {lo hi lo' hi' : Byte} (reading : Field → Int) (k : Nat)
    (h : field12 (word16 lo hi) = field12 (word16 lo' hi')) :
    (decodeResult lo hi reading k).field = (decodeResult lo' hi' reading k).field ∧
    (decodeResult lo hi reading k).ival = (decodeResult lo' hi' reading k).ival ∧
    (decodeResult lo hi reading k).fval = (decodeResult lo' hi' reading k).fval := by
  simp only [decodeResult, h, and_self]

/-- Settles O7: both requests are answered by the path's function, and the field sees the low nibble of `b_hi` alone. -/
theorem upperNibbleHasNoEffect : Obligations.UpperNibbleHasNoEffect := by
  intro mode bLo bHi bHi' s hmode hnibble
  have hfield : field12 (word16 bLo bHi) = field12 (word16 bLo bHi') := by
    rw [field12_word16, field12_word16, hnibble]
  exact ⟨_, _, presentDecode_valid s mode bLo bHi hmode, presentDecode_valid s mode bLo bHi' hmode,
    decodeResult_congr (countOf mode) (lsbExpOf mode) hfield⟩

end Sys2Proof.Machine
end

section
/-! The sign-magnitude readings (spec R74 to R79): a field's count by its bit 11, the two readings side by side, and what a decode
request answers given any reading. -/

namespace Sys2Proof.Machine

open Sys2Proof.Spec

/-! ### Sign and magnitude (spec R74) -/

/-- The low eleven bits of a word, as a slice and as a mask. -/
theorem toNat_low_eleven {n : Nat} (hn : 11 ≤ n) (x : BitVec n) :
    (x.extractLsb' 0 11).toNat = (x &&& BitVec.ofNat n 0x7FF).toNat := by
  have hmask : 0x7FF < 2 ^ n := calc
    0x7FF < 2 ^ 11 := by decide
    _ ≤ 2 ^ n := Nat.pow_le_pow_right (by decide) hn
  calc (x.extractLsb' 0 11).toNat
      = x.toNat % 2 ^ 11 := BitVec.extractLsb'_toNat 0 11 x
    _ = x.toNat &&& 0x7FF := (Nat.and_two_pow_sub_one_eq_mod x.toNat 11).symm
    _ = (x &&& BitVec.ofNat n 0x7FF).toNat := by rw [BitVec.toNat_and, BitVec.toNat_ofNat, Nat.mod_eq_of_lt hmask]

/-- The reading of a field, its magnitude taken with the mask of the spec's text. -/
theorem signMag12_eq_mask (f : Field) :
    signMag12 f = if f.getLsbD 11 then -((f &&& 0x7FF).toNat : ℤ) else ((f &&& 0x7FF).toNat : ℤ) := by
  rw [signMag12, toNat_low_eleven (by decide)]
  rfl

/-- The reading of a word's field is that of its low 12 bits: neither the sign nor the magnitude sees the upper nibble. -/
theorem signMag12_field12 (w : Word) : signMag12 (field12 w) = signMagnitudeOf w := by
  have hsign : (field12 w).getLsbD 11 = w.getLsbD 11 := by
    rw [field12, BitVec.getLsbD_extractLsb']
    rfl
  have hmagnitude : (field12 w).extractLsb' 0 11 = w.extractLsb' 0 11 := by
    apply BitVec.eq_of_toNat_eq
    rw [field12, BitVec.extractLsb'_toNat, BitVec.extractLsb'_toNat, BitVec.extractLsb'_toNat]
    exact Nat.mod_mod_of_dvd w.toNat (by decide : 2 ^ 11 ∣ 2 ^ 12)
  rw [signMag12, hsign, hmagnitude, toNat_low_eleven (by decide), signMagnitudeOf]
  rfl

/-- Turning bit 11 over turns the sign over and keeps the magnitude (spec R75 (d)). -/
theorem signMag12_flip (f : Field) : signMag12 (f ^^^ 0x800) = -signMag12 f := by
  have hsign : (f ^^^ 0x800).getLsbD 11 = !f.getLsbD 11 := by
    rw [BitVec.getLsbD_xor, show (0x800 : Field).getLsbD 11 = true from rfl, Bool.xor_true]
  have hmagnitude : (f ^^^ 0x800).extractLsb' 0 11 = f.extractLsb' 0 11 := by
    rw [BitVec.extractLsb'_xor, show (0x800 : Field).extractLsb' 0 11 = 0#11 from rfl, BitVec.xor_zero]
  rw [signMag12, hsign, hmagnitude, signMag12]
  cases f.getLsbD 11 <;> simp

/-! ### The two readings of a field, below and from 0x800 (spec R74, R75, R80) -/

theorem getLsbD_eleven_eq_decide (f : Field) : f.getLsbD 11 = decide (0x800 ≤ f.toNat) := BitVec.msb_eq_decide f

/-- Where bit 11 is clear both readings give the field's own value. -/
theorem readings_of_le {f : Field} (h : f.toNat ≤ 0x7FF) : signMag12 f = f.toNat ∧ twosComp12 f = f.toNat := by
  have hsign : f.getLsbD 11 = false := by
    rw [getLsbD_eleven_eq_decide]
    exact decide_eq_false (by omega)
  have hmagnitude : (f.extractLsb' 0 11).toNat = f.toNat := by
    rw [BitVec.extractLsb'_toNat]
    exact Nat.mod_eq_of_lt (by omega)
  rw [signMag12, twosComp12, hsign, hmagnitude]
  exact ⟨rfl, rfl⟩

/-- Where bit 11 is set, sign-magnitude counts down from 0 at 0x800, and two's complement up towards 0 at 0x1000. -/
theorem readings_of_ge {f : Field} (h : 0x800 ≤ f.toNat) :
    signMag12 f = 0x800 - f.toNat ∧ twosComp12 f = f.toNat - 0x1000 := by
  have hsign : f.getLsbD 11 = true := by
    rw [getLsbD_eleven_eq_decide]
    exact decide_eq_true h
  have hmagnitude : (f.extractLsb' 0 11).toNat = f.toNat - 0x800 := by
    have hf : f.toNat < 2 ^ 12 := f.isLt
    rw [BitVec.extractLsb'_toNat, Nat.shiftRight_zero]
    omega
  rw [signMag12, twosComp12, hsign, hmagnitude]
  refine ⟨?_, rfl⟩
  show -((f.toNat - 0x800 : ℕ) : ℤ) = 0x800 - f.toNat
  omega

/-- Every field lies below 0x800 or from there on, and its readings with it. -/
theorem readings_cases (f : Field) :
    (f.toNat ≤ 0x7FF ∧ signMag12 f = f.toNat ∧ twosComp12 f = f.toNat) ∨
    (0x800 ≤ f.toNat ∧ signMag12 f = 0x800 - f.toNat ∧ twosComp12 f = f.toNat - 0x1000) := by
  rcases Nat.lt_or_ge f.toNat 0x800 with hlt | hge
  · exact .inl ⟨Nat.le_of_lt_succ hlt, readings_of_le (Nat.le_of_lt_succ hlt)⟩
  · exact .inr ⟨hge, readings_of_ge hge⟩

theorem signMag12_bounds (f : Field) : -2047 ≤ signMag12 f ∧ signMag12 f ≤ 2047 := by
  have := natAbs_signMag12_le f
  omega

/-- The two zeros of sign-magnitude (spec R75 (c)). -/
theorem signMag12_eq_zero_iff (f : Field) : signMag12 f = 0 ↔ f = 0x000 ∨ f = 0x800 := by
  rw [← BitVec.toNat_inj, ← BitVec.toNat_inj, show (0x000 : Field).toNat = 0 from rfl,
    show (0x800 : Field).toNat = 0x800 from rfl]
  obtain ⟨hle, hsm, -⟩ | ⟨hge, hsm, -⟩ := readings_cases f
  · omega
  · omega

/-- From 0x800 on the two readings meet where 0x800 - u and u - 0x1000 do, at 0xC00 (spec R75 (e)). -/
theorem signMag12_eq_twosComp12_iff (f : Field) : signMag12 f = twosComp12 f ↔ f.toNat ≤ 0x7FF ∨ f = 0xC00 := by
  rw [← BitVec.toNat_inj, show (0xC00 : Field).toNat = 0xC00 from rfl]
  obtain ⟨hle, hsm, htc⟩ | ⟨hge, hsm, htc⟩ := readings_cases f
  · omega
  · omega

/-- Settles O9: below 0x800 and from there on each reading is one linear expression in u(field), and the clauses follow. -/
theorem signMagnitudeReadingProperties : Obligations.SignMagnitudeReadingProperties := by
  refine ⟨signMag12_eq_mask, signMag12_field12, signMag12_bounds, signMag12_eq_zero_iff,
    fun k => ⟨float32Of_zero k, float32Of_zero k⟩, signMag12_flip, signMag12_eq_twosComp12_iff,
    fun f h => readings_of_le h, fun f h => ?_, by decide, by decide, by decide⟩
  obtain ⟨hsm, htc⟩ := readings_of_ge (f := f) (by omega)
  omega

/-! ### What a decode request answers, given a reading (spec R59, R69, R70, R89, R92) -/

theorem isFinite_of_goodTemperature {f : Binary32} (h : goodTemperature f) : isFinite f = true := by
  obtain rfl | hnormal := h
  · decide
  · rw [isNormal, Bool.and_eq_true] at hnormal
    exact hnormal.2

/-- A decode result holds the count that its reading gives the word's field, and that count times its constant, exactly. -/
theorem decodeResult_decodedAs (lo hi : Byte) {reading : Field → Int} {k : Nat} {count : ℤ}
    (hcount : reading (field12 (word16 lo hi)) = count) (hbound : count.natAbs ≤ 4095) (hk : k ≤ 4) :
    DecodedAs (decodeResult lo hi reading k) lo hi count (1 / 2 ^ k) := by
  subst hcount
  refine ⟨word16_eq_append lo hi, rfl, rfl, isFinite_of_goodTemperature (goodTemperature_scale hbound hk), ?_, ?_⟩
  · exact (fValue_float32Of hbound hk).trans (mul_one_div _ _).symm
  · intro hzero
    exact (congrArg (scale · k) hzero).trans (float32Of_zero k)

/-- The sign-magnitude requests, whatever their constant. -/
theorem decodeResult_signMag12 (lo hi : Byte) {k : Nat} (hk : k ≤ 4) :
    DecodedAs (decodeResult lo hi signMag12 k) lo hi (signMagnitudeOf (word16 lo hi)) (1 / 2 ^ k) := by
  have hcount := signMag12_field12 (word16 lo hi)
  have hbound := natAbs_signMag12_le (field12 (word16 lo hi))
  rw [hcount] at hbound
  exact decodeResult_decodedAs lo hi hcount (by omega) hk

theorem quarter_eq_thrLsb : (1 / 4 : ℚ) = 1 / 2 ^ thrLsbExp := by norm_num [thrLsbExp, pixLsbExp]

theorem sixteenth_eq_thmLsb : (1 / 16 : ℚ) = 1 / 2 ^ thmLsbExp := by norm_num [thmLsbExp]

/-- Settles O2: the meaning of mode 10 is the sign-magnitude reading with the constant `2^-2`. -/
theorem decThrScalesSignMagnitudeByQuarter : Obligations.DecThrScalesSignMagnitudeByQuarter := by
  intro bLo bHi s
  rw [quarter_eq_thrLsb]
  exact ⟨_, decode_dreqOf 0b10 bLo bHi, exec_decThr s bLo bHi, decodeResult_signMag12 bLo bHi (by decide)⟩

/-- Settles O3: the meaning of mode 11 is the sign-magnitude reading with the constant `2^-4`. -/
theorem decThmScalesSignMagnitudeBySixteenth : Obligations.DecThmScalesSignMagnitudeBySixteenth := by
  intro bLo bHi s
  rw [sixteenth_eq_thmLsb]
  exact ⟨_, decode_dreqOf 0b11 bLo bHi, exec_decThm s bLo bHi, decodeResult_signMag12 bLo bHi (by decide)⟩

/-- Settles O8: one count of one field, exact under both constants, of which one is four times the other. -/
theorem decThrIsFourTimesDecThm : Obligations.DecThrIsFourTimesDecThm := by
  intro bLo bHi s
  obtain ⟨-, -, -, -, hthr, -⟩ := decodeResult_signMag12 bLo bHi (k := thrLsbExp) (by decide)
  obtain ⟨-, -, -, -, hthm, -⟩ := decodeResult_signMag12 bLo bHi (k := thmLsbExp) (by decide)
  refine ⟨_, _, exec_decThr s bLo bHi, exec_decThm s bLo bHi, rfl, rfl, rfl, ?_⟩
  rw [hthr, hthm, ← quarter_eq_thrLsb, ← sixteenth_eq_thmLsb]
  ring

end Sys2Proof.Machine
end

section
/-! The two's-complement reading (spec R80 to R83): Lean's own signed value of a field, so that the library's facts about sign extension
and shifts are facts about the reading. -/

namespace Sys2Proof.Machine

open Sys2Proof.Spec

/-! ### The reading and its pattern (spec R80) -/

theorem twosComp12_eq_toInt (f : Field) : twosComp12 f = f.toInt := (BitVec.toInt_eq_msb_cond f).symm

theorem twosComp12_of_clear {f : Field} (h : f.getLsbD 11 = false) : twosComp12 f = f.toNat := by
  rw [twosComp12, h]
  rfl

theorem twosComp12_of_set {f : Field} (h : f.getLsbD 11 = true) : twosComp12 f = (f.toNat : ℤ) - 4096 := by
  rw [twosComp12, h]
  rfl

/-- The pattern of the count is the sign extension of the field: four copies of bit 11 above it. -/
theorem tc16_twosComp12 (f : Field) : tc16 (twosComp12 f) = (if f.getLsbD 11 then 0xF#4 else 0x0#4) ++ f := by
  calc tc16 (twosComp12 f)
      = f.signExtend 16 := by rw [twosComp12_eq_toInt]; rfl
    _ = (if f.getLsbD 11 then 0xF#4 else 0x0#4) ++ f := BitVec.signExtend_eq_append_of_le (by decide)

/-- Settles O11: the bounds, the two cases of bit 11, and the pattern. -/
theorem twosComplementReadingIsSignExtension : Obligations.TwosComplementReadingIsSignExtension := by
  intro f
  obtain ⟨hlo, hhi⟩ := twosComp12_bounds f
  exact ⟨hlo, hhi, twosComp12_of_clear, twosComp12_of_set, tc16_twosComp12 f⟩

/-! ### The shift formulation (spec R81) -/

/-- Shifting the word left by 4 drops the upper nibble, which is the masking, and leaves the field above four zeros. -/
theorem shiftLeft_four_eq_field12 (w : Word) : w <<< 4 = field12 w ++ 0#4 :=
  BitVec.shiftLeft_eq_concat_of_lt (by decide)

/-- The arithmetic shift divides the signed value by 16, which leaves the field's own. -/
theorem sshiftRight_four_append (f : Field) : (f ++ 0#4).sshiftRight 4 = tc16 (twosComp12 f) := by
  have hvalue : (f ++ 0#4).toInt >>> (4 : ℕ) = twosComp12 f := by
    rw [BitVec.toInt_append_zero, Int.shiftRight_eq_div_pow, twosComp12_eq_toInt]
    exact Int.mul_ediv_cancel_left _ (by decide)
  exact congrArg tc16 hvalue

/-- The logical shift puts zeros above the field. -/
theorem ushiftRight_four_append (f : Field) : (f ++ 0#4) >>> 4 = 0#4 ++ f := by
  have hfield : (f ++ 0#4).extractLsb' 4 12 = f := BitVec.extractLsb'_append_eq_left
  calc (f ++ 0#4) >>> 4
      = 0#4 ++ (f ++ 0#4).extractLsb' 4 12 := BitVec.ushiftRight_eq_extractLsb'_of_lt (by decide)
    _ = 0#4 ++ f := by rw [hfield]

/-- Where bit 11 is set the zeros of the logical shift are not the ones of the sign extension. -/
theorem zero_append_ne_tc16_twosComp12 {f : Field} (h : f.getLsbD 11 = true) : 0#4 ++ f ≠ tc16 (twosComp12 f) := by
  intro heq
  rw [tc16_twosComp12, h] at heq
  have hnibble := congrArg (BitVec.extractLsb' 12 4) heq
  rw [BitVec.extractLsb'_append_eq_left, BitVec.extractLsb'_append_eq_left] at hnibble
  exact absurd hnibble (by decide)

/-- Settles O12: after the left shift only the field is left, and the two right shifts differ in what they put above it. -/
theorem shiftFormulationSignExtends : Obligations.ShiftFormulationSignExtends := by
  intro w
  rw [shiftLeft_four_eq_field12, sshiftRight_four_append, ushiftRight_four_append]
  have hvalue : (0#4 ++ field12 w).toNat = (field12 w).toNat := (BitVec.toNat_append _ _).trans (Nat.zero_or _)
  exact ⟨rfl, hvalue, zero_append_ne_tc16_twosComp12⟩

/-! ### The bijection (spec R82) -/

theorem twosComp12_tc12 {v : ℤ} (hlo : -2048 ≤ v) (hhi : v ≤ 2047) : twosComp12 (tc12 v) = v := by
  rw [twosComp12_eq_toInt]
  exact BitVec.toInt_ofInt_eq_self (by decide) hlo (Int.lt_add_one_of_le hhi)

@[simp] theorem tc12_twosComp12 (f : Field) : tc12 (twosComp12 f) = f := by
  rw [twosComp12_eq_toInt]
  exact BitVec.ofInt_toInt

/-- The one zero (spec R82 (c)). -/
theorem twosComp12_eq_zero_iff (f : Field) : twosComp12 f = 0 ↔ f = 0x000 := by
  constructor
  · intro hzero
    rw [← tc12_twosComp12 f, hzero]
    rfl
  · rintro rfl
    rfl

/-- Where bit 11 is set the two readings meet at 0xC00 alone (spec R82 (d)). -/
theorem twosComp12_eq_signMag12_iff_of_set {f : Field} (h : f.getLsbD 11 = true) :
    twosComp12 f = signMag12 f ↔ f = 0xC00 := by
  rw [getLsbD_eleven_eq_decide] at h
  have hge := of_decide_eq_true h
  rw [eq_comm, signMag12_eq_twosComp12_iff]
  exact or_iff_right (by omega)

/-- Settles O10: encoding and reading undo each other, and the rest are values of the reading. -/
theorem twosComplementReadingIsBijection : Obligations.TwosComplementReadingIsBijection :=
  ⟨fun _ => twosComp12_tc12, tc12_twosComp12, twosComp12_bounds, by decide, by decide, twosComp12_eq_zero_iff,
    fun _ => twosComp12_eq_signMag12_iff_of_set⟩

/-! ### DEC_PIX (spec R83) -/

/-- The reading of a word's field is that of its low 12 bits. -/
theorem twosComp12_field12 (w : Word) : twosComp12 (field12 w) = twosComplementOf w := by
  have hsign : (field12 w).getLsbD 11 = w.getLsbD 11 := by
    rw [field12, BitVec.getLsbD_extractLsb']
    rfl
  rw [twosComp12, hsign, toNat_field12]
  rfl

/-- The two's-complement requests, whatever their constant. -/
theorem decodeResult_twosComp12 (lo hi : Byte) {k : Nat} (hk : k ≤ 4) :
    DecodedAs (decodeResult lo hi twosComp12 k) lo hi (twosComplementOf (word16 lo hi)) (1 / 2 ^ k) := by
  have hcount := twosComp12_field12 (word16 lo hi)
  have hbounds := twosComp12_bounds (field12 (word16 lo hi))
  rw [hcount] at hbounds
  exact decodeResult_decodedAs lo hi hcount (by omega) hk

/-- Settles O1: the meaning of mode 00 is the two's-complement reading with the constant `2^-2`. -/
theorem decPixScalesTwosComplementByQuarter : Obligations.DecPixScalesTwosComplementByQuarter := by
  intro bLo bHi s
  rw [quarter_eq_thrLsb]
  exact ⟨_, decode_dreqOf 0b00 bLo bHi, exec_decPix s bLo bHi, decodeResult_twosComp12 bLo bHi (by decide)⟩

end Sys2Proof.Machine
end

section
/-! Scaling (spec R85 to R91): the fields of a scaled count, the two constants as scaled counts of 1, and the values that a reading
of the field reaches. -/

namespace Sys2Proof.Machine

/-! ### The pattern of a scaled count (spec R91) -/

/-- With a constant of the block the biased exponent `p - k + 127` lies between those of `1 * 2^-4` and `2^11 * 2^-2`. -/
theorem fExp_float32Of_bounds {i : ℤ} {k : ℕ} (hi : i ≠ 0) (ha : i.natAbs ≤ 4095) (hlo : 2 ≤ k) (hhi : k ≤ 4) :
    123 ≤ fExp (float32Of i k) ∧ fExp (float32Of i k) ≤ 136 := by
  obtain ⟨-, hexp, -⟩ := float32Of_fields hi ha hhi
  obtain ⟨-, -, hlog⟩ := log2_bounds (Int.natAbs_ne_zero.2 hi) ha
  omega

theorem isNormal_of_fExp_bounds {t : Binary32} (hlo : 0 < fExp t) (hhi : fExp t < 255) : isNormal t = true := by
  rw [isNormal, Bool.and_eq_true, bne_iff_ne, bne_iff_ne]
  omega

/-- Settles O13: the position `p` of the rule is that of the leading bit of the count. -/
theorem float32OfIsExact : Obligations.Float32OfIsExact := by
  intro i k ha hk
  have hlo : 2 ≤ k := by omega
  have hhi : k ≤ 4 := by omega
  refine ⟨fValue_float32Of ha hhi, ?_, fun hi => ?_⟩
  · rintro rfl
    exact float32Of_zero k
  · obtain ⟨hsign, hexp, hfrac⟩ := float32Of_fields hi ha hhi
    obtain ⟨hexpLo, hexpHi⟩ := fExp_float32Of_bounds hi ha hlo hhi
    obtain ⟨hle, hlt, -⟩ := log2_bounds (Int.natAbs_ne_zero.2 hi) ha
    exact ⟨isNormal_of_fExp_bounds (by omega) (by omega), hexpLo, hexpHi, by rw [hsign, decide_eq_true_iff],
      Nat.log2 i.natAbs, hle, hlt, hexp, hfrac⟩

/-! ### The conversion and the constants (spec R85 to R87, R89) -/

theorem fValue_intToFloat {i : ℤ} (ha : i.natAbs ≤ 4095) : fValue (intToFloat i) = i := by
  rw [intToFloat, fValue_float32Of ha (by decide), pow_zero, div_one]

theorem fValue_float32Of_one {k : ℕ} (hk : k ≤ 4) : fValue (float32Of 1 k) = 1 / 2 ^ k := by
  rw [fValue_float32Of (by decide) hk, Int.cast_one]

/-- The pattern of the pixel constant is that of the count 1, scaled. -/
theorem fValue_pixLsb : fValue pixLsb = 1 / 2 ^ pixLsbExp := by
  rw [show pixLsb = float32Of 1 pixLsbExp by decide, fValue_float32Of_one (by decide)]

/-- The pattern of the thermistor constant is that of the count 1, scaled. -/
theorem fValue_thmLsb : fValue thmLsb = 1 / 2 ^ thmLsbExp := by
  rw [show thmLsb = float32Of 1 thmLsbExp by decide, fValue_float32Of_one (by decide)]

/-- The constant that bit 0 of the mode chooses, as a power of two. -/
theorem fValue_lsb_of_mode (mode : Mode) :
    (if mode.getLsbD 0 then fValue thmLsb else fValue pixLsb) = 1 / 2 ^ lsbExpOf mode := by
  rw [lsbExpOf, fValue_thmLsb, fValue_pixLsb]
  split
  · rfl
  · rfl

/-- Settles O14: the conversion, the constants and the scaled count are all exact, so the product is one of rationals. -/
theorem scalingMultipliesByTheConstant : Obligations.ScalingMultipliesByTheConstant := by
  intro i hlo hhi
  have hcount : fValue (intToFloat i) = i := fValue_intToFloat (by omega)
  refine ⟨hcount, float32Of_zero 0, rfl, fValue_pixLsb.trans quarter_eq_thrLsb.symm, rfl,
    fValue_thmLsb.trans sixteenth_eq_thmLsb.symm, fun mode => ?_⟩
  calc fValue (scale i (lsbExpOf mode))
      = (i : ℚ) / 2 ^ lsbExpOf mode := fValue_float32Of (by omega) (lsbExpOf_le mode)
    _ = i * (1 / 2 ^ lsbExpOf mode) := (mul_one_div _ _).symm
    _ = fValue (intToFloat i) * (if mode.getLsbD 0 then fValue thmLsb else fValue pixLsb) := by
        rw [hcount, fValue_lsb_of_mode]

/-! ### The values of the table (spec R90) -/

/-- Every magnitude is read back from the field that spells it. -/
theorem signMag12_ofNat {m : ℕ} (hm : m ≤ 2047) : signMag12 (BitVec.ofNat 12 m) = m := by
  have hvalue : (BitVec.ofNat 12 m).toNat = m := (BitVec.toNat_ofNat m 12).trans (Nat.mod_eq_of_lt (by omega))
  obtain ⟨hcount, -⟩ := readings_of_le (f := BitVec.ofNat 12 m) (by omega)
  rw [hcount, hvalue]

/-- Sign-magnitude reaches every count of its range: a magnitude, or a magnitude with bit 11 turned over. -/
theorem exists_signMag12_eq {i : ℤ} (hlo : -2047 ≤ i) (hhi : i ≤ 2047) : ∃ f, signMag12 f = i := by
  obtain ⟨m, rfl | rfl⟩ := i.eq_nat_or_neg
  · exact ⟨BitVec.ofNat 12 m, signMag12_ofNat (by omega)⟩
  · exact ⟨BitVec.ofNat 12 m ^^^ 0x800, by rw [signMag12_flip, signMag12_ofNat (by omega)]⟩

theorem exists_twosComp12_eq {i : ℤ} (hlo : -2048 ≤ i) (hhi : i ≤ 2047) : ∃ f, twosComp12 f = i :=
  ⟨tc12 i, twosComp12_tc12 hlo hhi⟩

/-- A reading whose counts are exactly those from `lo` to `hi` has as scaled values exactly those counts times the constant. -/
theorem scaled_values_of_reading {reading : Field → ℤ} {lo hi : ℤ} {k : ℕ}
    (hbounds : ∀ f, lo ≤ reading f ∧ reading f ≤ hi) (hreaches : ∀ {i : ℤ}, lo ≤ i → i ≤ hi → ∃ f, reading f = i)
    (hlo : -4095 ≤ lo) (hhi : hi ≤ 4095) (hk : k ≤ 4) (x : ℚ) :
    (∃ f, fValue (scale (reading f) k) = x) ↔ ∃ i : ℤ, lo ≤ i ∧ i ≤ hi ∧ x = i / 2 ^ k := by
  have hexact {i : ℤ} (h : lo ≤ i) (h' : i ≤ hi) : fValue (scale i k) = (i : ℚ) / 2 ^ k :=
    fValue_float32Of (by omega) hk
  constructor
  · rintro ⟨f, rfl⟩
    obtain ⟨hle, hge⟩ := hbounds f
    exact ⟨reading f, hle, hge, hexact hle hge⟩
  · rintro ⟨i, hle, hge, rfl⟩
    obtain ⟨f, rfl⟩ := hreaches hle hge
    exact ⟨f, hexact hle hge⟩

/-- Settles O15: each request answers with the scaled count of its reading, and each reading's counts are exactly those of its row. -/
theorem decodedTemperaturesAreTheTablesValues : Obligations.DecodedTemperaturesAreTheTablesValues := by
  have hquarter : (4 : ℚ) = 2 ^ 2 := by norm_num
  have hsixteenth : (16 : ℚ) = 2 ^ 4 := by norm_num
  have hpix (f : Field) : goodTemperature (scale (twosComp12 f) 2) := by
    have := twosComp12_bounds f
    exact goodTemperature_scale (by omega) (by decide)
  have hsm (f : Field) {k : ℕ} (hk : k ≤ 4) : goodTemperature (scale (signMag12 f) k) :=
    goodTemperature_scale ((natAbs_signMag12_le f).trans (by decide)) hk
  rw [Obligations.DecodedTemperaturesAreTheTablesValues, hquarter, hsixteenth]
  refine ⟨fun bLo bHi s => ?_, ?_, ?_, ?_⟩
  · exact ⟨_, _, _, exec_decPix s bLo bHi, exec_decThr s bLo bHi, exec_decThm s bLo bHi,
      rfl, hpix _, rfl, hsm _ (by decide), rfl, hsm _ (by decide)⟩
  · exact scaled_values_of_reading twosComp12_bounds exists_twosComp12_eq (by decide) (by decide) (by decide)
  · exact scaled_values_of_reading signMag12_bounds exists_signMag12_eq (by decide) (by decide) (by decide)
  · exact scaled_values_of_reading signMag12_bounds exists_signMag12_eq (by decide) (by decide) (by decide)

end Sys2Proof.Machine
end

section
/-! The quotient of the threshold encoder (spec R95 to R97, R101): each rounding as a fact about rationals, its saturation, and what
ENC_THR puts on `q` for each kind of threshold. -/

namespace Sys2Proof.Machine

open Sys2Proof.Spec

/-! ### Rounding (spec R96) -/

/-- Truncation leaves less than 1, and never goes beyond the number in magnitude. -/
theorem truncate_error (x : ℚ) : |x - truncate x| < 1 ∧ |(truncate x : ℚ)| ≤ |x| := by
  rw [truncate]
  split
  · next hneg =>
    have hle := Int.le_ceil x
    have hlt := Int.ceil_lt_add_one x
    have hceil : (⌈x⌉ : ℚ) ≤ 0 := by exact_mod_cast Int.ceil_nonpos.2 hneg.le
    rw [abs_lt, abs_of_nonpos hceil, abs_of_neg hneg]
    exact ⟨⟨by linarith, by linarith⟩, by linarith⟩
  · next hneg =>
    have hpos : 0 ≤ x := not_lt.1 hneg
    have hle := Int.floor_le x
    have hlt := Int.lt_floor_add_one x
    have hfloor : (0 : ℚ) ≤ ⌊x⌋ := by exact_mod_cast Int.floor_nonneg.2 hpos
    rw [abs_lt, abs_of_nonneg hfloor, abs_of_nonneg hpos]
    exact ⟨⟨by linarith, by linarith⟩, hle⟩

/-- Every rounding leaves less than 1. -/
theorem abs_sub_lt_one_of_roundsTo {r : EncRound} {x : ℚ} {i : ℤ} (h : RoundsTo r x i) : |x - i| < 1 := by
  cases r with
  | towardZero =>
    obtain rfl : i = truncate x := h
    exact (truncate_error x).1
  | nearestEven => exact h.1.trans_lt (by norm_num)
  | floor =>
    obtain rfl : i = ⌊x⌋ := h
    rw [abs_of_nonneg (sub_nonneg.2 (Int.floor_le x))]
    exact sub_lt_comm.1 (Int.sub_one_lt_floor x)

/-- So no rounding of a number falls below an integer that the number is not below. -/
theorem le_of_roundsTo {r : EncRound} {x : ℚ} {i n : ℤ} (h : RoundsTo r x i) (hn : n ≤ x) : n ≤ i := by
  have hdist := (abs_lt.1 (abs_sub_lt_one_of_roundsTo h)).2
  have hlt : (n : ℚ) < i + 1 := by linarith
  exact Int.lt_add_one_iff.1 (by exact_mod_cast hlt)

/-- Nor does one rise above an integer that the number is not above. -/
theorem roundsTo_le {r : EncRound} {x : ℚ} {i n : ℤ} (h : RoundsTo r x i) (hn : x ≤ n) : i ≤ n := by
  have hdist := (abs_lt.1 (abs_sub_lt_one_of_roundsTo h)).1
  have hlt : (i : ℚ) < n + 1 := by linarith
  exact Int.lt_add_one_iff.1 (by exact_mod_cast hlt)

/-- An integer is rounded to itself. -/
theorem roundsTo_intCast {r : EncRound} {i n : ℤ} (h : RoundsTo r n i) : i = n :=
  le_antisymm (roundsTo_le h le_rfl) (le_of_roundsTo h le_rfl)

/-- A numerator with a positive denominator has the sign of the quotient, so the division of magnitudes rounds toward zero. -/
theorem toInt_towardZero (num : ℤ) {den : ℕ} (hden : 0 < den) : toInt .towardZero num den = truncate (num / den) := by
  have hsign : (num : ℚ) / den < 0 ↔ num < 0 := by
    rw [div_lt_iff₀ (by exact_mod_cast hden), zero_mul]
    exact Int.cast_lt_zero
  rw [truncate, Rat.floor_intCast_div_natCast, Rat.ceil_intCast_div_natCast, toInt]
  by_cases hneg : num < 0
  · rw [if_pos hneg, if_pos (hsign.2 hneg), Int.natCast_div, Int.ofNat_natAbs_of_nonpos hneg.le]
  · rw [if_neg hneg, if_neg (mt hsign.1 hneg), Int.natCast_div, Int.natAbs_of_nonneg (not_lt.1 hneg)]

theorem abs_sub_floor (x : ℚ) : |x - ⌊x⌋| = Int.fract x := abs_of_nonneg (Int.fract_nonneg x)

theorem abs_sub_floor_add_one (x : ℚ) : |x - (⌊x⌋ + 1 : ℤ)| = 1 - Int.fract x := by
  have hsub : x - (⌊x⌋ + 1 : ℤ) = Int.fract x - 1 := by
    rw [← Int.self_sub_floor]
    push_cast
    ring
  rw [hsub, abs_of_neg (sub_neg.2 (Int.fract_lt_one x)), neg_sub]

theorem roundsTo_nearestEven_of_lt {x : ℚ} {i : ℤ} (h : |x - i| < 1 / 2) : RoundsTo .nearestEven x i :=
  ⟨h.le, fun htie => absurd htie h.ne⟩

theorem roundsTo_nearestEven_of_tie {x : ℚ} {i : ℤ} (h : |x - i| = 1 / 2) (heven : i % 2 = 0) : RoundsTo .nearestEven x i :=
  ⟨h.le, fun _ => heven⟩

/-- Twice the remainder against the denominator is the fraction against one half. -/
theorem toInt_nearestEven_roundsTo (num : ℤ) {den : ℕ} (hden : 0 < den) :
    RoundsTo .nearestEven (num / den) (toInt .nearestEven num den) := by
  have hpos : (0 : ℚ) < den := by exact_mod_cast hden
  have hfract : Int.fract ((num : ℚ) / den) = (num % (den : ℤ) : ℤ) / den := Int.fract_div_intCast_eq_div_intCast_mod
  have hbelow : Int.fract ((num : ℚ) / den) < 1 / 2 ↔ 2 * (num % (den : ℤ)) < den := by
    rw [hfract, div_lt_div_iff₀ hpos two_pos, mul_comm, one_mul]
    norm_cast
  have habove : 1 / 2 < Int.fract ((num : ℚ) / den) ↔ (den : ℤ) < 2 * (num % (den : ℤ)) := by
    rw [hfract, div_lt_div_iff₀ two_pos hpos, mul_comm _ (2 : ℚ), one_mul]
    norm_cast
  simp only [toInt, ← Rat.floor_intCast_div_natCast, ← hbelow, ← habove]
  split_ifs with hlt hgt heven
  · exact roundsTo_nearestEven_of_lt (by rwa [abs_sub_floor])
  · exact roundsTo_nearestEven_of_lt (by rw [abs_sub_floor_add_one]; linarith)
  · exact roundsTo_nearestEven_of_tie (by rw [abs_sub_floor]; linarith) heven
  · exact roundsTo_nearestEven_of_tie (by rw [abs_sub_floor_add_one]; linarith) (by omega)

/-- The model's `ToInt` of a quotient is the rounding that the parameter names. -/
theorem toInt_roundsTo (r : EncRound) (num : ℤ) {den : ℕ} (hden : 0 < den) :
    RoundsTo r (num / den) (toInt r num den) := by
  cases r with
  | towardZero => exact toInt_towardZero num hden
  | nearestEven => exact toInt_nearestEven_roundsTo num hden
  | floor => exact (Rat.floor_intCast_div_natCast num den).symm

/-! ### Saturation (spec R97) -/

theorem clamp_eq_saturate (i : ℤ) : clamp i = saturate i := by
  rw [clamp, encMax, saturate]
  split_ifs <;> omega

theorem saturate_of_bounds {i : ℤ} (hlo : -4095 ≤ i) (hhi : i ≤ 4095) : saturate i = i := by
  rw [saturate]
  omega

theorem saturate_of_ge {i : ℤ} (h : 4095 ≤ i) : saturate i = 4095 := by
  rw [saturate]
  omega

theorem saturate_of_le {i : ℤ} (h : i ≤ -4095) : saturate i = -4095 := by
  rw [saturate]
  omega

/-! ### The clamped quotient (spec R95 to R97, R101) -/

theorem isNaN_of_isFinite {t : Binary32} (h : isFinite t = true) : isNaN t = false := by
  rw [isFinite, bne_iff_ne] at h
  simp [isNaN, h]

theorem isInf_of_isFinite {t : Binary32} (h : isFinite t = true) : isInf t = false := by
  rw [isFinite, bne_iff_ne] at h
  simp [isInf, h]

theorem isNaN_of_isInf {t : Binary32} (h : isInf t = true) : isNaN t = false := by
  rw [isInf, Bool.and_eq_true, beq_iff_eq, beq_iff_eq] at h
  simp [isNaN, h]

/-- The quotient of the model is that of the spec, `4 t`. -/
theorem four_mul_fValue (t : Binary32) : 4 * fValue t = (quotientNum t : ℚ) / quotientDen := by
  rw [fValue, quotientNum, quotientDen]
  push_cast
  ring

/-- A finite threshold's quotient is rounded and saturated. -/
theorem clampedQuotient_of_isFinite (r : EncRound) {t : Binary32} (h : isFinite t = true) :
    ∃ q0, RoundsTo r (4 * fValue t) q0 ∧ clampedQuotient r t = saturate q0 := by
  refine ⟨toInt r (quotientNum t) quotientDen, ?_, ?_⟩
  · rw [four_mul_fValue]
    exact toInt_roundsTo r _ (Nat.two_pow_pos 148)
  · rw [clampedQuotient, isInf_of_isFinite h, if_neg Bool.false_ne_true, clamp_eq_saturate]

theorem clampedQuotient_of_isInf (r : EncRound) {t : Binary32} (h : isInf t = true) :
    clampedQuotient r t = if t.getLsbD 31 then -4095 else 4095 := by
  rw [clampedQuotient, if_pos h]
  rfl

theorem clampedQuotient_towardZero {t : Binary32} (h : isFinite t = true) :
    clampedQuotient .towardZero t = saturate (truncate (4 * fValue t)) := by
  obtain ⟨q0, rfl, hq⟩ := clampedQuotient_of_isFinite .towardZero h
  exact hq

/-- A multiple of 0.25 needs no rounding. -/
theorem clampedQuotient_of_quarters (r : EncRound) {t : Binary32} {n : ℤ} (h : isFinite t = true) (hn : fValue t = n / 4) :
    clampedQuotient r t = saturate n := by
  obtain ⟨q0, hround, hq⟩ := clampedQuotient_of_isFinite r h
  rw [hn, mul_div_cancel₀ _ four_ne_zero] at hround
  rw [hq, roundsTo_intCast hround]

theorem clampedQuotient_of_ge (r : EncRound) {t : Binary32} (h : isFinite t = true) (ht : 1024 ≤ fValue t) :
    clampedQuotient r t = 4095 := by
  obtain ⟨q0, hround, hq⟩ := clampedQuotient_of_isFinite r h
  have hbeyond : 4096 ≤ q0 := le_of_roundsTo hround (by push_cast; linarith)
  rw [hq, saturate_of_ge (by omega)]

theorem clampedQuotient_of_le (r : EncRound) {t : Binary32} (h : isFinite t = true) (ht : fValue t ≤ -1024) :
    clampedQuotient r t = -4095 := by
  obtain ⟨q0, hround, hq⟩ := clampedQuotient_of_isFinite r h
  have hbeyond : q0 ≤ -4096 := roundsTo_le hround (by push_cast; linarith)
  rw [hq, saturate_of_le (by omega)]

/-! ### What ENC_THR answers (spec R94, R100) -/

/-- The two registers, high above low. -/
theorem splitHi_append_splitLo (f : Field) : splitHi f ++ splitLo f = 0#4 ++ f := by
  rw [← word16_eq_append]
  exact word16_splitLo f 0#4

/-- The output `q` spells the clamped quotient. -/
theorem toInt_encodeResult_q (p : Params) (t : Binary32) : (encodeResult p t).q.toInt = clampedQuotient p.encRound t := by
  obtain ⟨hlo, hhi⟩ := clampedQuotient_bounds p.encRound t
  exact toInt_tc16 (by omega) (by omega)

theorem encodeResult_q_of_eq {p : Params} {t : Binary32} {q : ℤ} (h : clampedQuotient p.encRound t = q) :
    (encodeResult p t).q = tc16 q := by
  rw [encodeResult, h]

/-- Settles O17: under the default parameters the clamped quotient is the truncated and saturated one. -/
theorem encThrDividesClampsAndSplits : Obligations.EncThrDividesClampsAndSplits := by
  rintro t s ⟨hround, hlayout⟩
  refine ⟨exec_encThr_nan s, fun hn => ⟨encodeResult s.params t, clampedQuotient s.params.encRound t,
    registerValue s.params.encNegLayout (clampedQuotient s.params.encRound t), exec_encThr_not_nan s hn,
    fun hfin => ?_, ?_, ?_, ?_, rfl, rfl, rfl⟩⟩
  · rw [hround, clampedQuotient_towardZero hfin]
  · rintro rfl
    exact clampedQuotient_of_isInf _ (by decide)
  · rintro rfl
    exact clampedQuotient_of_isInf _ (by decide)
  · rw [hlayout]
    rfl

/-- Settles O18: the clamped quotient is the saturation of a rounding, and truncation is the one with the error bound. -/
theorem encThrRoundsAsTheParameterSays : Obligations.EncThrRoundsAsTheParameterSays := by
  refine ⟨fun t s hfin => ?_, rfl⟩
  obtain ⟨q0, hround, hq⟩ := clampedQuotient_of_isFinite s.params.encRound hfin
  refine ⟨encodeResult s.params t, q0, exec_encThr_not_nan s (isNaN_of_isFinite hfin), hround, encodeResult_q_of_eq hq,
    fun hlt => ?_, fun hlt => ?_, fun htz => ?_⟩
  · exact encodeResult_q_of_eq (hq.trans (saturate_of_le hlt.le))
  · exact encodeResult_q_of_eq (hq.trans (saturate_of_ge hlt.le))
  · rw [htz] at hround
    obtain rfl : q0 = truncate (4 * fValue t) := hround
    obtain ⟨herror, hmagnitude⟩ := truncate_error (4 * fValue t)
    refine ⟨?_, hmagnitude⟩
    rw [abs_lt] at herror ⊢
    constructor <;> linarith

/-- Settles O20: no rounding brings the quotient back from 4096, and 4095 is its own rounding. -/
theorem encThrSaturatesSilently : Obligations.EncThrSaturatesSilently := by
  intro t s hn
  refine ⟨encodeResult s.params t, exec_encThr_not_nan s hn, rfl, fun hfin ht => ?_, fun hfin ht => ?_, ?_, ?_,
    fun ht hfin => ?_, fun ht hfin => ?_⟩
  · exact encodeResult_q_of_eq (clampedQuotient_of_ge _ hfin ht)
  · exact encodeResult_q_of_eq (clampedQuotient_of_le _ hfin ht)
  · rintro rfl
    exact encodeResult_q_of_eq (clampedQuotient_of_isInf _ (by decide))
  · rintro rfl
    exact encodeResult_q_of_eq (clampedQuotient_of_isInf _ (by decide))
  · exact encodeResult_q_of_eq (clampedQuotient_of_quarters _ hfin (n := 4095) (ht.trans (by norm_num)))
  · exact encodeResult_q_of_eq (clampedQuotient_of_quarters _ hfin (n := -4095) (ht.trans (by norm_num)))

/-- Settles O21: an infinity is no NaN and has its clamped quotient by its sign; a NaN has no meaning on any way in. -/
theorem encThrNonFiniteInputs : Obligations.EncThrNonFiniteInputs := by
  intro t s
  constructor
  · intro hinf
    refine ⟨encodeResult s.params t, exec_encThr_not_nan s (isNaN_of_isInf hinf), ?_⟩
    rw [toInt_encodeResult_q, clampedQuotient_of_isInf _ hinf]
  · intro hn
    exact ⟨exec_encThr_nan s hn, presentEncode_nan s t hn, decode_ereq_nan hn⟩

end Sys2Proof.Machine
end

section
/-! The two registers of a threshold (spec R98 to R104): the 12-bit value of the clamped quotient in each layout, and what DEC_THR makes
of the two bytes that ENC_THR wrote. -/

namespace Sys2Proof.Machine

open Sys2Proof.Spec

/-! ### The 12-bit register value (spec R98, R99) -/

/-- Forcing bit 11 makes a field's low eleven bits its magnitude and its sign negative. -/
theorem signMag12_or_signBit (f : Field) : signMag12 (f ||| 0x800) = -((f.extractLsb' 0 11).toNat : ℤ) := by
  have hsign : (f ||| 0x800).getLsbD 11 = true := by
    rw [BitVec.getLsbD_or, show (0x800 : Field).getLsbD 11 = true from rfl, Bool.or_true]
  have hmagnitude : (f ||| 0x800).extractLsb' 0 11 = f.extractLsb' 0 11 := by
    rw [BitVec.extractLsb'_or, show (0x800 : Field).extractLsb' 0 11 = 0#11 from rfl, BitVec.or_zero]
  rw [signMag12, hsign, hmagnitude]
  rfl

/-- From 0x800 on bit 11 is set already. -/
theorem or_signBit_of_ge {f : Field} (h : 0x800 ≤ f.toNat) : f ||| 0x800 = f := by
  have hset : f.getLsbD 11 = true := by
    rw [getLsbD_eleven_eq_decide]
    exact decide_eq_true h
  have hbit : f &&& 0x800 = 0x800 := by
    rw [show (0x800 : Field) = BitVec.twoPow 12 11 from rfl, BitVec.and_twoPow, if_pos hset]
  rw [← hbit]
  apply BitVec.eq_of_getLsbD_eq
  intro i _
  rw [BitVec.getLsbD_or, BitVec.getLsbD_and]
  exact sup_inf_self

theorem toNat_ofNat_twelve {m : ℕ} (hm : m ≤ 4095) : (BitVec.ofNat 12 m).toNat = m :=
  (BitVec.toNat_ofNat m 12).trans (Nat.mod_eq_of_lt (by omega))

/-- A magnitude that covers the sign bit is read as what it has beyond it, negative. -/
theorem signMag12_ofNat_of_ge {m : ℕ} (hlo : 2048 ≤ m) (hhi : m ≤ 4095) : signMag12 (BitVec.ofNat 12 m) = 2048 - m := by
  have hvalue := toNat_ofNat_twelve hhi
  obtain ⟨hcount, -⟩ := readings_of_ge (f := BitVec.ofNat 12 m) (by omega)
  rw [hcount, hvalue]

/-- The forced bit, as the spec writes it. -/
theorem registerValue_smOr (q : ℤ) :
    registerValue .smOr q = BitVec.ofNat 12 q.natAbs ||| (if q < 0 then 0x800 else 0x000) := rfl

/-- A magnitude of 12 bits covers the sign bit. -/
theorem registerValue_smOr_of_ge {q : ℤ} (hlo : 2048 ≤ q.natAbs) (hhi : q.natAbs ≤ 4095) :
    registerValue .smOr q = BitVec.ofNat 12 q.natAbs := by
  rw [registerValue_smOr]
  split
  · exact or_signBit_of_ge (by rwa [toNat_ofNat_twelve hhi])
  · exact BitVec.or_zero

/-- For a quotient that is not negative every layout has the magnitude. -/
theorem registerValue_of_nonneg (l : EncNegLayout) {q : ℤ} (h : 0 ≤ q) : registerValue l q = BitVec.ofNat 12 q.natAbs := by
  cases l with
  | smOr =>
    rw [registerValue_smOr, if_neg (not_lt.2 h)]
    exact BitVec.or_zero
  | magnitudeOnly => rfl
  | twosComplementLow12 =>
    obtain ⟨m, rfl⟩ := Int.eq_ofNat_of_zero_le h
    exact BitVec.ofInt_natCast 12 m

/-- Up to 2047 the default layout is the sign-magnitude encoding, and so is every layout of a quotient that is not negative. -/
theorem signMag12_registerValue {l : EncNegLayout} {q : ℤ} (hl : l = .smOr ∨ 0 ≤ q) (hq : q.natAbs ≤ 2047) :
    signMag12 (registerValue l q) = q := by
  by_cases hneg : q < 0
  · obtain rfl : l = .smOr := hl.resolve_right (not_le.2 hneg)
    have hmagnitude : ((BitVec.ofNat 12 q.natAbs).extractLsb' 0 11).toNat = q.natAbs := by
      rw [BitVec.extractLsb'_toNat, BitVec.toNat_ofNat, Nat.shiftRight_zero]
      omega
    rw [registerValue_smOr, if_pos hneg, signMag12_or_signBit, hmagnitude]
    omega
  · rw [registerValue_of_nonneg l (not_lt.1 hneg), signMag12_ofNat hq]
    omega

/-- The low 12 bits of the 16-bit pattern are the 12-bit pattern. -/
theorem extractLsb'_tc16 (i : ℤ) : (tc16 i).extractLsb' 0 12 = tc12 i := by
  apply BitVec.eq_of_toNat_eq
  rw [BitVec.extractLsb'_toNat, tc16, tc12, BitVec.toNat_ofInt, BitVec.toNat_ofInt, Nat.shiftRight_zero]
  omega

/-! ### What ENC_THR writes (spec R100) -/

/-- The 12-bit value that the encoder writes for a threshold. -/
def encodedField (p : Params) (t : Binary32) : Field := registerValue p.encNegLayout (clampedQuotient p.encRound t)

/-- The two bytes of the answer are those of that value, under a nibble of zeros. -/
theorem encodeResult_bytes (p : Params) (t : Binary32) :
    (encodeResult p t).rHi ++ (encodeResult p t).rLo = 0#4 ++ encodedField p t :=
  splitHi_append_splitLo (encodedField p t)

/-- Settles O19: the layouts of the clamped quotient, which is the signed value on `q`. -/
theorem encThrLaysOutTheSignAsTheParameterSays : Obligations.EncThrLaysOutTheSignAsTheParameterSays := by
  refine ⟨fun t s hn => ⟨encodeResult s.params t, encodedField s.params t, exec_encThr_not_nan s hn,
    encodeResult_bytes s.params t, ?_⟩, rfl⟩
  rw [toInt_encodeResult_q, encodedField]
  have hbounds := clampedQuotient_bounds s.params.encRound t
  refine ⟨fun hl => ?_, fun hl => ?_, fun hl => ?_, fun hlo hhi => ?_⟩
  · rw [hl]
    exact ⟨registerValue_smOr _, signMag12_registerValue (.inl rfl), fun hge => registerValue_smOr_of_ge hge (by omega)⟩
  · rw [hl]
    rfl
  · rw [hl]
    exact (extractLsb'_tc16 _).symm
  · rw [registerValue_of_nonneg _ hlo, toNat_ofNat_twelve (by omega), Int.natAbs_of_nonneg hlo]

/-! ### The value read back (spec R103, R104) -/

/-- ENC_THR and then DEC_THR of its two bytes: the decoder finds the value that was written, and reads it as sign-magnitude. -/
theorem encThr_then_decThr (s : State) {t : Binary32} (hn : isNaN t = false) :
    ∃ u v d, exec (.encThr t) s = .next u ∧ u.encOut = some (encodeResult s.params t) ∧
      exec (.decThr (encodeResult s.params t).rLo (encodeResult s.params t).rHi) u = .next v ∧ v.decOut = some d ∧
      d.field = encodedField s.params t ∧ fValue d.fval = signMag12 (encodedField s.params t) * (1 / 4) := by
  have hfield : field12 (word16 (encodeResult s.params t).rLo (encodeResult s.params t).rHi) = encodedField s.params t := by
    rw [word16_eq_append, encodeResult_bytes, field12_append]
  have hbound := natAbs_signMag12_le (encodedField s.params t)
  obtain ⟨-, -, -, -, hvalue, -⟩ := decodeResult_decodedAs (encodeResult s.params t).rLo (encodeResult s.params t).rHi
    (reading := signMag12) (k := thrLsbExp) (congrArg signMag12 hfield) (by omega) (by decide)
  rw [← quarter_eq_thrLsb] at hvalue
  exact ⟨_, _, _, exec_encThr_not_nan s hn, rfl, exec_decThr _ _ _, rfl, hfield, hvalue⟩

/-- Below 512 degrees truncation leaves a quotient that the clamp does not touch. -/
theorem natAbs_truncate_le {x : ℚ} (h : |x| < 512) : (truncate (4 * x)).natAbs ≤ 2047 := by
  have hmagnitude := (truncate_error (4 * x)).2
  rw [abs_mul, abs_of_pos (four_pos : (0 : ℚ) < 4)] at hmagnitude
  have hlt : |(truncate (4 * x) : ℚ)| < 2048 := by linarith
  have hlt' : |truncate (4 * x)| < 2048 := by exact_mod_cast hlt
  rw [Int.abs_eq_natAbs] at hlt'
  omega

/-- Below 512 degrees the written value reads back as the truncated quotient. -/
theorem signMag12_encodedField {p : Params} {t : Binary32} (hfin : isFinite t = true) (ht : |fValue t| < 512)
    (hround : p.encRound = .towardZero) (hl : p.encNegLayout = .smOr ∨ 0 ≤ fValue t) :
    signMag12 (encodedField p t) = truncate (4 * fValue t) := by
  have hsmall := natAbs_truncate_le ht
  have hnonneg (h : 0 ≤ fValue t) : 0 ≤ truncate (4 * fValue t) :=
    le_of_roundsTo (r := .towardZero) rfl (by push_cast; linarith)
  rw [encodedField, hround, clampedQuotient_towardZero hfin, saturate_of_bounds (by omega) (by omega)]
  exact signMag12_registerValue (hl.imp_right hnonneg) hsmall

/-- A pattern whose exact value is a multiple of 0.25, that is `n * 2^148` over `2^150`. -/
theorem fValue_of_fScaled {t : Binary32} {n : ℤ} (h : fScaled t = n * 2 ^ 148) : fValue t = n / 4 := by
  rw [fValue, h]
  push_cast
  ring

/-- Settles O23: below 512 degrees what is read back is the truncated quotient; -10.0 in another layout is not read back as -40. -/
theorem thresholdRoundTripWithinOneLsb : Obligations.ThresholdRoundTripWithinOneLsb := by
  constructor
  · intro t s hfin ht hround hl
    obtain ⟨u, v, d, hu, he, hv, hd, -, hvalue⟩ := encThr_then_decThr s (isNaN_of_isFinite hfin)
    rw [signMag12_encodedField hfin ht hround hl] at hvalue
    refine ⟨u, v, _, d, hu, he, hv, hd, hvalue.trans (mul_comm _ _), ?_, fun n hn => ?_⟩
    · have herror := (truncate_error (4 * fValue t)).1
      rw [abs_lt] at herror ⊢
      rw [hvalue]
      constructor <;> linarith
    · have hquotient : 4 * fValue t = n := by rw [hn, mul_div_cancel₀ _ four_ne_zero]
      rw [hvalue, hquotient, roundsTo_intCast (r := .towardZero) rfl, hn, mul_one_div]
  · intro s hround hl
    have hten : fValue 0xC1200000 = (-40 : ℤ) / 4 := fValue_of_fScaled (by decide)
    obtain ⟨u, v, d, hu, he, hv, hd, -, hvalue⟩ := encThr_then_decThr s (t := 0xC1200000) (by decide)
    have hread : signMag12 (encodedField s.params 0xC1200000) ≠ -40 := by
      rw [encodedField, clampedQuotient_of_quarters _ (by decide) hten, saturate_of_bounds (by decide) (by decide)]
      cases hlayout : s.params.encNegLayout with
      | smOr => exact absurd hlayout hl
      | magnitudeOnly => decide
      | twosComplementLow12 => decide
    refine ⟨u, v, _, d, hu, he, hv, hd, hten.trans (by norm_num), fun heq => hread ?_⟩
    have hcount : (signMag12 (encodedField s.params 0xC1200000) : ℚ) = -40 := by linarith
    exact_mod_cast hcount

/-- Settles O24: from 2048 on the magnitude covers bit 11, which the decoder takes for the sign. -/
theorem thresholdBytesLoseTheValueBeyond512 : Obligations.ThresholdBytesLoseTheValueBeyond512 := by
  intro t s hn hl
  obtain ⟨u, v, d, hu, he, hv, hd, hfield, hvalue⟩ := encThr_then_decThr s hn
  have hquotient := toInt_encodeResult_q s.params t
  have hbounds := clampedQuotient_bounds s.params.encRound t
  rw [encodedField, hl] at hfield hvalue
  have hquarters {n : ℤ} (hfin : isFinite t = true) (ht : fScaled t = n * 2 ^ 148) :
      clampedQuotient s.params.encRound t = saturate n ∧ d.field = registerValue .smOr (saturate n) := by
    have hq := clampedQuotient_of_quarters s.params.encRound hfin (fValue_of_fScaled ht)
    exact ⟨hq, hq ▸ hfield⟩
  refine ⟨u, v, _, d, hu, he, hv, hd, ?_⟩
  rw [encodeResult_bytes, encodedField, hl, hquotient]
  refine ⟨by omega, fun hge => ?_, ?_, ?_, ?_, ?_⟩
  · have hlt : (clampedQuotient s.params.encRound t).natAbs ≤ 4095 := by omega
    rw [registerValue_smOr_of_ge hge hlt] at hvalue ⊢
    constructor
    · exact ((BitVec.toNat_append _ _).trans (Nat.zero_or _)).trans (toNat_ofNat_twelve hlt)
    · rw [hvalue, signMag12_ofNat_of_ge hge hlt, Int.cast_sub, Int.cast_natCast, Int.cast_ofNat, neg_sub]
  · rintro rfl
    exact hquarters (n := 2048) (by decide) (by decide)
  · rintro rfl
    exact hquarters (n := -2048) (by decide) (by decide)
  · rintro rfl
    exact hquarters (n := 8000) (by decide) (by decide)
  · rintro rfl
    exact hquarters (n := -8000) (by decide) (by decide)

end Sys2Proof.Machine
end

section
/-! The named sequences (spec R105 to R112): a presented request word is run as the request it spells; a read followed by samples
stores their temperatures or ends; and each threshold of ENC_TRIPLE is encoded and written to its own pair of registers. -/

namespace Sys2Proof.Machine

open Sys2Proof.Spec

/-! ### The request of a step (spec R55, R56, R65, R105) -/

theorem presentWord_ok {w : RequestWord} {i : Instr} (h : decode w = .ok i) (s : State) : presentWord w s = exec i s := by
  simp only [presentWord, h]

/-- The item that stands for a request word presents that word. -/
theorem runItem_itemOf (w : RequestWord) (s : State) : runItem (itemOf w) s = presentWord w s := by
  cases w with
  | dreq w => exact congrArg (fun w => presentWord (.dreq w) s) (dreqOf_parts w)
  | ereq t => rfl

theorem decodeTableWord_eq_some {nbits w : Nat} {i : Instr} (h : decodeTableWord nbits w = some i) :
    ∃ r, requestOfBits nbits w = .ok r ∧ decode r = .ok i := by
  rw [decodeTableWord, decodeBits] at h
  cases hbits : requestOfBits nbits w with
  | error e => simp [hbits] at h
  | ok r =>
    cases hword : decode r with
    | error e => simp [hbits, hword] at h
    | ok i' =>
      obtain rfl : i' = i := by simpa [hbits, hword] using h
      exact ⟨r, rfl, hword⟩

theorem withFetchWord_ok {nbits w : Nat} {r : RequestWord} (h : requestOfBits nbits w = .ok r) (s : State) :
    s.withFetchWord nbits w = { s with program := itemOf r :: s.program } := by
  simp only [State.withFetchWord, h]

/-- Settles O36: on either path, and from the bits, the item presents the word that decodes to the request. -/
theorem stepRunsTheDecodedRequest : Obligations.StepRunsTheDecodedRequest := by
  refine ⟨?_, ?_, ?_⟩
  · intro s rest mode bLo bHi i hprog hdecode
    exact (step_cons hprog).trans (presentWord_ok hdecode _)
  · intro s rest t i hprog hdecode
    exact (step_cons hprog).trans (presentWord_ok hdecode _)
  · intro s nbits w i htable
    obtain ⟨r, hbits, hdecode⟩ := decodeTableWord_eq_some htable
    rw [withFetchWord_ok hbits s]
    calc step { s with program := itemOf r :: s.program }
        = runItem (itemOf r) s := step_cons rfl
      _ = presentWord r s := runItem_itemOf r s
      _ = exec i s := presentWord_ok hdecode s

/-! ### The raw copy of the Interrupt Flag Block (spec R112) -/

/-- Settles O55: the item is the read and nothing else. -/
theorem interruptFlagsPassUnchanged : Obligations.InterruptFlagsPassUnchanged := by
  intro s u count rest hprog hstep
  have hread : engineRead s.params.intFlagBase count.val { s with program := rest } = .next u :=
    (step_cons hprog).symm.trans hstep
  obtain ⟨-, hdecOut, -, hencOut, hresponses, hstored, hprogram⟩ := engineRead_leaves hread
  exact ⟨hread, hresponses, hstored, hdecOut, hencOut, hprogram⟩

/-! ### A run in parts -/

/-- `k` steps lead from `s` to `u`, none of them a refusal, so that a run from `s` goes on as one from `u`. -/
def StepsTo (k : Nat) (s u : State) : Prop := ∀ n, Sys2Proof.core.run (n + k) s = Sys2Proof.core.run n u

theorem StepsTo.refl (s : State) : StepsTo 0 s s := fun _ => rfl

theorem StepsTo.trans {j k : Nat} {s u v : State} (h : StepsTo j s u) (h' : StepsTo k u v) : StepsTo (j + k) s v := by
  intro n
  rw [Nat.add_comm j, ← Nat.add_assoc, h, h']

theorem StepsTo.of_step {s u : State} (h : step s = .next u) : StepsTo 1 s u := fun _ => core_run_succ h

theorem StepsTo.of_item {item : Item} {rest : List Item} {s u : State} (hprog : s.program = item :: rest)
    (h : runItem item { s with program := rest } = .next u) : StepsTo 1 s u :=
  .of_step ((step_cons hprog).trans h)

theorem StepsTo.run {k : Nat} {s u : State} (h : StepsTo k s u) : Sys2Proof.core.run k s = .next u := by
  have hrun := h 0
  rwa [Nat.zero_add] at hrun

/-! ### A read, and the items that follow it (spec R40, R107, R108, R110) -/

theorem readThen_fills {base : Addr} {count : Nat} {s u : State} {bytes : List Byte}
    (hread : engineRead base count s = .next u) (hbuf : u.buf = some bytes) (items : List Item) :
    readThen base count items s = .next { u with program := items ++ u.program } := by
  simp [readThen, andThen, hread, hbuf]

theorem readThen_fails {base : Addr} {count : Nat} {s u : State} (hread : engineRead base count s = .next u)
    (hbuf : u.buf = none) (items : List Item) : readThen base count items s = .next u := by
  simp [readThen, andThen, hread, hbuf]

/-- Settles O51: each of the three sequences is a read followed by items, and the items are left out. -/
theorem failedReadEndsTheSequence : Obligations.FailedReadEndsTheSequence := by
  intro s item rest base count j hprog hitem hopen hc hin hj hfails
  have hstep : ∃ items, step s = readThen base count items { s with program := rest } := by
    obtain ⟨rfl, rfl⟩ | ⟨rfl, rfl, rfl⟩ | ⟨rfl, rfl⟩ := hitem
    · exact ⟨_, step_cons hprog⟩
    · exact ⟨_, step_cons hprog⟩
    · exact ⟨_, step_cons hprog⟩
  obtain ⟨items, hstep⟩ := hstep
  obtain ⟨u, hread, hbuf, hcalls, -⟩ :=
    failedReadSuppliesNoSample base count j { s with program := rest } hopen hc hin hj hfails
  obtain ⟨-, hdecOut, -, -, hresponses, hstored, hprogram⟩ := engineRead_leaves hread
  exact ⟨u, hstep.trans (readThen_fails hread hbuf items), hprogram, hresponses, hstored, hbuf, hcalls, hdecOut⟩

/-! ### The samples of the buffer (spec R33, R107) -/

theorem sampleOf_eq_some_iff {bytes : List Byte} {k : Nat} {lo hi : Byte} :
    sampleOf bytes k = some (lo, hi) ↔ bytes[2 * k]? = some lo ∧ bytes[2 * k + 1]? = some hi := by
  rw [sampleOf]
  split <;> simp_all

/-- A sample that the buffer holds is presented with its bytes and answered. -/
theorem runItem_sample {mode : Mode} {k : Nat} {bytes : List Byte} {lo hi : Byte} {s : State} (hmode : mode ≠ 0b01)
    (hbuf : s.buf = some bytes) (hsample : sampleOf bytes k = some (lo, hi)) :
    runItem (.sample mode k) s =
      .next (s.respondDecode mode lo hi (decodeResult lo hi (countOf mode) (lsbExpOf mode))) := by
  have hlevels : s.sampleIn mode k = { inValid := true, mode := mode, bLo := lo, bHi := hi } := by
    simp only [State.sampleIn, hbuf, hsample]
  rw [runItem, hlevels, presentDecode_valid s mode lo hi hmode]

theorem runItem_storeValue {r : DecodeResult} {s : State} (h : s.decOut = some r) :
    runItem .storeValue s = .next { s with stored := s.stored ++ [r.fval] } :=
  storeValue_valid h

/-- From `s` to `u` the results were answered and their temperatures stored, in order, and the buffer and the registers
stayed. -/
structure Sampled (results : List DecodeResult) (s u : State) : Prop where
  responses : u.responses = s.responses ++ results.map .decode
  stored    : u.stored = s.stored ++ results.map DecodeResult.fval
  buf       : u.buf = s.buf
  regs      : u.regs = s.regs

theorem Sampled.nil (s : State) : Sampled [] s s where
  responses := by simp
  stored := by simp
  buf := rfl
  regs := rfl

theorem Sampled.cons {r : DecodeResult} {results : List DecodeResult} {s u v : State} (h : Sampled [r] s u)
    (k : Sampled results u v) : Sampled (r :: results) s v where
  responses := by simp [k.responses, h.responses]
  stored := by simp [k.stored, h.stored]
  buf := k.buf.trans h.buf
  regs := k.regs.trans h.regs

/-- Two steps decode a sample of the buffer and store its temperature. -/
theorem sampleAndStore_stepsTo {mode : Mode} {k : Nat} {rest : List Item} {bytes : List Byte} {lo hi : Byte} {s : State}
    (hmode : mode ≠ 0b01) (hprog : s.program = sampleAndStore mode k ++ rest) (hbuf : s.buf = some bytes)
    (hsample : sampleOf bytes k = some (lo, hi)) :
    ∃ u, StepsTo 2 s u ∧ u.program = rest ∧ Sampled [decodeResult lo hi (countOf mode) (lsbExpOf mode)] s u := by
  have hdecode := StepsTo.of_item hprog (runItem_sample hmode hbuf hsample)
  exact ⟨_, hdecode.trans (.of_item rfl (runItem_storeValue rfl)), rfl, rfl, rfl, rfl, rfl⟩

/-- The samples `ks` of the buffer, one after the other. -/
theorem samples_stepsTo {mode : Mode} {ks : List Nat} {rest : List Item} {bytes : List Byte} {lo hi : Nat → Byte}
    {s : State} (hmode : mode ≠ 0b01) (hprog : s.program = ks.flatMap (sampleAndStore mode) ++ rest)
    (hbuf : s.buf = some bytes) (hsamples : ∀ k ∈ ks, sampleOf bytes k = some (lo k, hi k)) :
    ∃ u, StepsTo (2 * ks.length) s u ∧ u.program = rest ∧
      Sampled (ks.map fun k => decodeResult (lo k) (hi k) (countOf mode) (lsbExpOf mode)) s u := by
  induction ks generalizing s with
  | nil => exact ⟨s, .refl s, hprog, .nil s⟩
  | cons k ks ih =>
    obtain ⟨hk, hks⟩ := List.forall_mem_cons.1 hsamples
    rw [List.flatMap_cons, List.append_assoc] at hprog
    obtain ⟨u, hu, huprog, hfirst⟩ := sampleAndStore_stepsTo hmode hprog hbuf hk
    obtain ⟨v, hv, hvprog, hothers⟩ := ih huprog (hfirst.buf.trans hbuf) hks
    rw [List.length_cons, Nat.mul_succ, Nat.add_comm]
    exact ⟨v, hu.trans hv, hvprog, hfirst.cons hothers⟩

/-- A sequence whose read fills the buffer, and the samples that follow it. -/
theorem readThen_samples {base : Addr} {count : Nat} {mode : Mode} {ks : List Nat} {rest : List Item}
    {bytes : List Byte} {lo hi : Nat → Byte} {s u : State}
    (hstep : step s = readThen base count (ks.flatMap (sampleAndStore mode)) { s with program := rest })
    (hread : engineRead base count { s with program := rest } = .next u) (hbuf : u.buf = some bytes)
    (hmode : mode ≠ 0b01) (hsamples : ∀ k ∈ ks, sampleOf bytes k = some (lo k, hi k)) :
    ∃ v, Sys2Proof.core.run (1 + 2 * ks.length) s = .next v ∧ v.program = rest ∧
      Sampled (ks.map fun k => decodeResult (lo k) (hi k) (countOf mode) (lsbExpOf mode))
        { s with buf := u.buf, regs := u.regs } v := by
  obtain ⟨-, -, -, -, hresponses, hstored, hprogram⟩ := engineRead_leaves hread
  obtain ⟨v, hv, hvprog, hsampled⟩ :=
    samples_stepsTo (s := { u with program := ks.flatMap (sampleAndStore mode) ++ u.program }) hmode rfl hbuf hsamples
  refine ⟨v, ((StepsTo.of_step (hstep.trans (readThen_fills hread hbuf _))).trans hv).run, hvprog.trans hprogram, ?_⟩
  exact { hsampled with
    responses := hsampled.responses.trans (congrArg (· ++ _) hresponses)
    stored := hsampled.stored.trans (congrArg (· ++ _) hstored) }

/-- A sequence that reads two bytes, which are its one sample. -/
theorem readThen_oneSample {base : Addr} {mode : Mode} {rest : List Item} {lo hi : Byte} {s u : State}
    (hstep : step s = readThen base 2 (sampleAndStore mode 0) { s with program := rest })
    (hread : engineRead base 2 { s with program := rest } = .next u) (hbuf : u.buf = some [lo, hi])
    (hmode : mode ≠ 0b01) :
    ∃ v, Sys2Proof.core.run 3 s = .next v ∧ v.program = rest ∧
      Sampled [decodeResult lo hi (countOf mode) (lsbExpOf mode)] { s with buf := u.buf, regs := u.regs } v :=
  readThen_samples (ks := [0]) (lo := fun _ => lo) (hi := fun _ => hi) hstep hread hbuf hmode
    (List.forall_mem_singleton.2 rfl)

/-- Settles O52: the sample is decoded under mode 11. -/
theorem rdThmStoresTheThermistorTemperature : Obligations.RdThmStoresTheThermistorTemperature := by
  intro s u rest lo hi hprog hread hbuf
  obtain ⟨v, hv, hvprog, hresponses, hstored, -, -⟩ :=
    readThen_oneSample (mode := 0b11) (step_cons hprog) hread hbuf (by decide)
  refine ⟨v, _, hv, hvprog, hstored, hresponses, ?_⟩
  rw [sixteenth_eq_thmLsb, ← word16_eq_append]
  exact decodeResult_signMag12 lo hi (by decide)

/-- Settles O53: the sample is decoded under mode 10. -/
theorem rdThrStoresTheThreshold : Obligations.RdThrStoresTheThreshold := by
  intro s u base rest lo hi hprog hread hbuf
  obtain ⟨v, hv, hvprog, hresponses, hstored, -, -⟩ :=
    readThen_oneSample (mode := 0b10) (step_cons hprog) hread hbuf (by decide)
  refine ⟨v, _, hv, hvprog, hstored, hresponses, ?_⟩
  rw [quarter_eq_thrLsb, ← word16_eq_append]
  exact decodeResult_signMag12 lo hi (by decide)

/-- Settles O50: a buffer of 128 bytes holds samples 0 to 63, of mode 00. -/
theorem decFrameYieldsSixtyFourPixels : Obligations.DecFrameYieldsSixtyFourPixels := by
  intro s u base rest hprog hread
  have hstep := step_cons hprog
  constructor
  · intro bytes hbuf
    obtain ⟨hlen, -⟩ := readDeliversRegistersInAddressOrder.1 base 128 _ u bytes hread hbuf
    have hsample : ∀ k < 64, ∃ lo hi, sampleOf bytes k = some (lo, hi) := fun k hk =>
      ⟨bytes[2 * k], bytes[2 * k + 1], sampleOf_eq_some_iff.2
        ⟨List.getElem?_eq_getElem (by omega), List.getElem?_eq_getElem (by omega)⟩⟩
    choose! lo hi hsample using hsample
    obtain ⟨v, hv, hvprog, hresponses, hstored, -, hregs⟩ := readThen_samples (ks := List.range 64) (mode := 0b00)
      hstep hread hbuf (by decide) fun k hk => hsample k (List.mem_range.1 hk)
    refine ⟨v, _, _, hv, hvprog, hstored, by simp, hresponses, rfl, fun k hk => ?_, hregs⟩
    obtain ⟨hlo, hhi⟩ := sampleOf_eq_some_iff.1 (hsample k hk)
    refine ⟨lo k, hi k, _, hlo, hhi, by rw [List.getElem?_map, List.getElem?_range hk]; rfl, ?_⟩
    rw [quarter_eq_thrLsb, ← word16_eq_append]
    exact decodeResult_twosComp12 (lo k) (hi k) (by decide)
  · intro hbuf
    obtain ⟨-, -, -, -, hresponses, hstored, hprogram⟩ := engineRead_leaves hread
    exact ⟨hstep.trans (readThen_fails hread hbuf frameItems), hprogram, hresponses, hstored⟩

/-! ### The thresholds of ENC_TRIPLE (spec R109) -/

/-- The two bytes of an answer, low byte first (spec R32). -/
theorem bytesLE_two_append (hi lo : Byte) : bytesLE 2 (hi ++ lo) = [lo, hi] := by
  rw [bytesLE_two, BitVec.extractLsb'_append_eq_right, BitVec.extractLsb'_append_eq_left]

/-- A register after a pair of bytes was written. -/
theorem Memory.peek_pokeAll_pair (m : Memory) (a b : Nat) (x y : Byte) :
    (m.pokeAll a [x, y]).peek b = if b = a + 1 then some y else if b = a then some x else m.peek b := by
  simp only [Memory.pokeAll, Memory.peek_poke]

/-- An open device whose transactions succeed. -/
def State.Writable (s : State) : Prop := s.isOpen = true ∧ ∀ o ∈ s.bus, o = .succeeds

/-- Writing a threshold's answer puts its two bytes into its pair of registers. -/
theorem runItem_storeThreshold {base : Addr} {r : EncodeResult} {s : State} (hs : s.Writable)
    (hin : base.toNat + 2 ≤ 256) (hout : s.encOut = some r) :
    runItem (.storeThreshold base) s = .next ({ s.issue (.write base.toNat [r.rLo, r.rHi]) with
      regs := s.regs.pokeAll base.toNat [r.rLo, r.rHi] }.returned .ok) := by
  obtain ⟨hopen, hall⟩ := hs
  rw [runItem, storeThreshold_valid base hout, memWrite, bytesLE_two_append]
  exact engineWrite_succeeds hopen hin (busOutcome_of_all_succeed hall)

/-- From `s` to `u` the threshold was encoded as `r` and written to the two registers from `base` on, and the device can
be written again. -/
structure ThresholdWritten (base : Addr) (r : EncodeResult) (s u : State) : Prop where
  params    : u.params = s.params
  writable  : u.Writable
  responses : u.responses = s.responses ++ [.encode r]
  regs      : u.regs = s.regs.pokeAll base.toNat [r.rLo, r.rHi]

/-- Two steps encode a threshold and write it. -/
theorem encodeAndWrite_stepsTo {t : Binary32} {base : Addr} {rest : List Item} {s : State}
    (hprog : s.program = encodeAndWrite t base ++ rest) (hs : s.Writable) (hin : base.toNat + 2 ≤ 256)
    (hnan : isNaN t = false) :
    ∃ u, StepsTo 2 s u ∧ u.program = rest ∧ ThresholdWritten base (encodeResult s.params t) s u := by
  obtain ⟨hopen, hall⟩ := hs
  have hencode := StepsTo.of_item hprog (presentEncode_valid _ hnan)
  refine ⟨_, hencode.trans (.of_item rfl (runItem_storeThreshold ⟨hopen, hall⟩ hin rfl)), rfl, rfl,
    ⟨hopen, fun o ho => hall o (List.mem_of_mem_drop ho)⟩, rfl, rfl⟩

/-- Settles O54: three thresholds one after the other, into pairs of registers that share none. -/
theorem encTripleWritesThreeRegisterPairs : Obligations.EncTripleWritesThreeRegisterPairs := by
  intro s high low hyst rest hprog hopen hwf hall hhigh hlow hhyst
  obtain ⟨-, -, hhighIn, hlowIn, hhystIn, -, hhighLow, hhighHyst, hlowHyst, -⟩ := hwf
  have hexpand : StepsTo 1 s { s with program := tripleItems s.params high low hyst ++ rest } := .of_item hprog rfl
  obtain ⟨u, hu, huprog, huparams, huwritable, huresponses, huregs⟩ :=
    encodeAndWrite_stepsTo (s := { s with program := tripleItems s.params high low hyst ++ rest }) (t := high)
      (base := s.params.thrHighBase) rfl ⟨hopen, hall⟩ hhighIn hhigh
  obtain ⟨v, hv, hvprog, hvparams, hvwritable, hvresponses, hvregs⟩ :=
    encodeAndWrite_stepsTo huprog huwritable hlowIn hlow
  obtain ⟨w, hw, hwprog, -, -, hwresponses, hwregs⟩ := encodeAndWrite_stepsTo hvprog hvwritable hhystIn hhyst
  have hresponses : w.responses = s.responses ++ [.encode (encodeResult s.params high),
      .encode (encodeResult s.params low), .encode (encodeResult s.params hyst)] := by
    simp [hwresponses, hvresponses, huresponses, hvparams, huparams]
  rw [hvregs, huregs, hvparams, huparams] at hwregs
  refine ⟨w, _, _, _, (hexpand.trans (hu.trans (hv.trans hw))).run, hwprog, exec_encThr_not_nan s hhigh,
    exec_encThr_not_nan s hlow, exec_encThr_not_nan s hhyst, hresponses, ?_⟩
  -- The pairs share no register, so each address is that of one written byte at most.
  simp only [hwregs, Memory.peek_pokeAll_pair]
  refine ⟨?_, ?_, ?_, ?_, ?_, ?_, fun x _ _ _ _ _ _ => ?_⟩ <;> grind

end Sys2Proof.Machine
end

section
/-! Refusals and errors (spec R113 to R120): a request is refused where it is not defined and answers everywhere else; a failed
`Open` leaves no request to present. -/

namespace Sys2Proof.Machine

/-! ### What is refused (spec R118, R119, R120) -/

theorem exec_of_defined {i : Instr} (h : Defined i = true) (s : State) : ∃ u, exec i s = .next u := by
  cases i with
  | decPix lo hi => exact ⟨_, exec_decPix s lo hi⟩
  | reserved01 lo hi => exact nomatch h
  | decThr lo hi => exact ⟨_, exec_decThr s lo hi⟩
  | decThm lo hi => exact ⟨_, exec_decThm s lo hi⟩
  | encThr t => exact ⟨_, exec_encThr_not_nan s (by simpa [Defined] using h)⟩

theorem exec_of_not_defined {i : Instr} (h : Defined i = false) (s : State) :
    ∃ r, refusesInstruction i = some r ∧ exec i s = .refused r := by
  cases i with
  | decPix lo hi => exact nomatch h
  | reserved01 lo hi => exact ⟨.reservedMode, rfl, exec_reserved01 s lo hi⟩
  | decThr lo hi => exact nomatch h
  | decThm lo hi => exact nomatch h
  | encThr t =>
    have hnan : isNaN t = true := by simpa [Defined] using h
    exact ⟨.nanThreshold, if_pos hnan, exec_encThr_nan s hnan⟩

/-- The path on which a request is answered has its valid output 1 (spec R19). -/
theorem exec_valid_output {i : Instr} {s u : State} (h : exec i s = .next u) :
    ((modeOf i).isSome = true → u.outValid = true) ∧ (modeOf i = none → u.encOutValid = true) := by
  obtain ⟨m, lo, hi, r, hmode, hexec⟩ | ⟨t, hmode, hexec⟩ := exec_answers_everywhere h
  · obtain rfl : s.respondDecode m lo hi r = u := by simpa [hexec] using h
    exact ⟨fun _ => rfl, fun hnone => nomatch hmode.symm.trans hnone⟩
  · obtain rfl : s.respondEncode t (encodeResult s.params t) = u := by simpa [hexec] using h
    exact ⟨fun hsome => by simp [hmode] at hsome, fun _ => rfl⟩

/-- Settles O32: a defined request answers and any other is refused; there is no fault, for its type is empty (spec R120). -/
theorem onlyReservedAndNaNAreRefused : Obligations.OnlyReservedAndNaNAreRefused := by
  intro i s
  cases hdef : Defined i with
  | true =>
    obtain ⟨u, hu⟩ := exec_of_defined hdef s
    exact ⟨⟨fun _ => ⟨u, hu⟩, fun _ => rfl⟩, fun _ => ⟨u, hu, exec_valid_output hu⟩, nofun, nofun⟩
  | false =>
    obtain ⟨r, hname, hr⟩ := exec_of_not_defined hdef s
    exact ⟨⟨nofun, fun ⟨_, hu⟩ => nomatch hr.symm.trans hu⟩, nofun, fun _ => ⟨r, hname, hr⟩, nofun⟩

/-! ### A failed `Open` (spec R114) -/

/-- Settles O49: of the two outcomes of an `Open`, the one that fails; what it leaves is the empty program, which idles. -/
theorem failedOpenPresentsNoRequest : Obligations.FailedOpenPresentsNoRequest := by
  intro s busAddress rest hprog hfails
  obtain ⟨hok, -⟩ | ⟨-, hopen⟩ := openDevice_cases busAddress { s with program := rest }
  · exact nomatch hok.symm.trans hfails
  · exact ⟨_, (step_cons hprog).trans hopen, rfl, rfl, rfl, rfl, step_nil rfl⟩

end Sys2Proof.Machine
end

section
/-! Reset and hazards (spec R132): while no device is open every access to the bus is refused, whichever item makes it. -/

namespace Sys2Proof.Machine

/-! ### Access without an open device (spec R132) -/

theorem engineRead_notOpen (register : Addr) (count : Nat) {s : State} (h : s.isOpen = false) :
    engineRead register count s = .refused .transportNotOpen := by
  rw [engineRead, h, if_pos (by simp)]

theorem engineWrite_notOpen (register : Addr) (bytes : List Byte) {s : State} (h : s.isOpen = false) :
    engineWrite register bytes s = .refused .transportNotOpen := by
  rw [engineWrite, h, if_pos (by simp)]

/-- A refused read ends its sequence: the refusal is the sequence's own. -/
theorem readThen_notOpen (base : Addr) (count : Nat) (items : List Item) {s : State} (h : s.isOpen = false) :
    readThen base count items s = .refused .transportNotOpen := by
  rw [readThen, engineRead_notOpen base count h, andThen]

/-- A valid threshold is written as any other bytes are. -/
theorem storeThreshold_notOpen (base : Addr) {s : State} (h : s.isOpen = false) (hvalid : s.encOutValid = true) :
    storeThreshold base s = .refused .transportNotOpen := by
  obtain ⟨r, hr⟩ : ∃ r, s.encOut = some r := Option.isSome_iff_exists.1 hvalid
  rw [storeThreshold_valid base hr, memWrite, engineWrite_notOpen base _ h]

/-- Settles O57: taking the item off the program opens no device, and each of the items begins with a read or a write of the
engine. -/
theorem accessWithoutAnOpenDeviceIsRefused : Obligations.AccessWithoutAnOpenDeviceIsRefused := by
  intro s item rest hclosed hprog haccess
  rw [step_cons hprog]
  have hclosed' : { s with program := rest }.isOpen = false := hclosed
  obtain ⟨register, count, rfl⟩ | ⟨register, rfl⟩ | ⟨register, bytes, rfl⟩ | ⟨register, value, rfl⟩ | ⟨base, rfl⟩ | rfl |
    ⟨base, rfl⟩ | ⟨count, rfl⟩ | ⟨base, rfl, hvalid⟩ := haccess
  · exact engineRead_notOpen register count hclosed'
  · exact engineRead_notOpen register 1 hclosed'
  · exact engineWrite_notOpen register bytes hclosed'
  · exact engineWrite_notOpen register [value] hclosed'
  · exact readThen_notOpen base 128 frameItems hclosed'
  · exact readThen_notOpen _ 2 (sampleAndStore 0b11 0) hclosed'
  · exact readThen_notOpen base 2 (sampleAndStore 0b10 0) hclosed'
  · exact engineRead_notOpen _ count.val hclosed'
  · exact storeThreshold_notOpen base hclosed' hvalid

end Sys2Proof.Machine
end

section
/-! Table words (spec/95): bits that are a request word have that word's verdict, so the word of a well-formed request is read back as
the request, and the word of a NaN as none. -/

namespace Sys2Proof.Machine

/-! ### The verdict on a table row's word (spec R64, R65) -/

theorem decodeTableWord_of_requestOfBits {nbits w : Nat} {r : RequestWord} (h : requestOfBits nbits w = .ok r) :
    decodeTableWord nbits w = (decode r).toOption := by
  rw [decodeTableWord, decodeBits, h]
  cases hword : decode r with
  | ok i => simp [hword, Except.toOption]
  | error e => simp [hword, Except.toOption]

/-- Bits that are the encoding of a well-formed request are read back as that request. -/
theorem decodeTableWord_of_encode {nbits w : Nat} {i : Instr} (h : requestOfBits nbits w = .ok (encode i))
    (hwf : WellFormed i = true) : decodeTableWord nbits w = some i := by
  rw [decodeTableWord_of_requestOfBits h, decodeOfEncodeIsTheRequest i hwf, Except.toOption]

theorem decodeTableWord_nan {nbits w : Nat} {t : Binary32} (h : requestOfBits nbits w = .ok (.ereq t)) (hn : isNaN t = true) :
    decodeTableWord nbits w = none := by
  rw [decodeTableWord_of_requestOfBits h, decode_ereq_nan hn, Except.toOption]

/-- Settles O28: the first five words are the encodings of the requests the tables give them, and the last is a NaN. -/
theorem tableWordsDecodeAsWritten : Obligations.TableWordsDecodeAsWritten :=
  ⟨decodeTableWord_of_encode (i := .decPix 0x64 0x00) rfl rfl, decodeTableWord_of_encode (i := .decThm 0x64 0x08) rfl rfl,
    decodeTableWord_of_encode (i := .decThr 0x28 0x08) rfl rfl, decodeTableWord_of_encode (i := .reserved01 0x64 0x00) rfl rfl,
    decodeTableWord_of_encode (i := .encThr 0x41C80000) rfl rfl, decodeTableWord_nan (t := 0x7FC00000) rfl rfl⟩

end Sys2Proof.Machine
end
